-- ==== Sys2Proof/Word.lean ====
section
/-! DEFINITION. The value widths of CORE (spec 00_scope.md R10, R12). -/

namespace Sys2Proof

/-- A byte: 8 bits, bit 7 most significant (R10). -/
abbrev Byte := BitVec 8

/-- A nibble: 4 bits, bit 3 most significant (R10). -/
abbrev Nibble := BitVec 4

/-- An `int32` operand: 32 bits read as a signed two's-complement number through `BitVec.toInt` (R12). -/
abbrev SInt32 := BitVec 32

end Sys2Proof
end

