-- ==== Sys2Proof/Config.lean ====
section
/-! DEFINITION. The parameters of one CORE (spec 00_scope.md R6 to R8): what the source fixes, what the spec
decides, and the two parameters left open: the width of a source and the house-code table. -/

namespace Sys2Proof.Config

/-! ## Fixed by the document (R6) -/

/-- `POLY`, the polynomial byte (R6). -/
def poly : Byte := 0x07
/-- `CRC_SEED`, the seed of every CRC (R6). -/
def crcSeed : Byte := 0x00
/-- `TABLE_SIZE` (R6). -/
def tableSize : Nat := 256
/-- `SYNC_BYTES` (R6). -/
def syncBytes : Nat := 1
/-- `DL_BYTES`, the width of the big-endian data-length field in bytes (R6). -/
def dlBytes : Nat := 2
/-- `OL_BYTES` (R6). -/
def olBytes : Nat := 1
/-- `TYPE_BYTES` (R6). -/
def typeBytes : Nat := 1
/-- `HCRC_BYTES` (R6). -/
def hcrcBytes : Nat := 1
/-- `PCRC_BYTES` (R6). -/
def pcrcBytes : Nat := 1
/-- `HOUSE_COUNT` (R6). -/
def houseCount : Nat := 16

/-! ## Decided by the spec (R7) -/

/-- `SYNC`, the sync byte (R7, decision D3). -/
def sync : Byte := 0x55
/-- `OFF_SYNC` (R7, R61, R110). -/
def offSync : Nat := 0
/-- `OFF_DL_HI` (R7, R61, R110). -/
def offDlHi : Nat := 1
/-- `OFF_DL_LO` (R7, R61, R110). -/
def offDlLo : Nat := 2
/-- `OFF_OL` (R7, R61, R110). -/
def offOl : Nat := 3
/-- `OFF_TYPE` (R7, R61, R110). -/
def offType : Nat := 4
/-- `OFF_HCRC` (R7, R61, R110). -/
def offHcrc : Nat := 5
/-- `HDR_SIZE` (R7, R61, R110). -/
def hdrSize : Nat := 6
/-- The largest data length a header can claim (R63). -/
def maxDl : Nat := 65535
/-- The largest optional-data length a header can claim (R63). -/
def maxOl : Nat := 255
/-- `MAX_N`, the largest data-plus-optional length a header can claim (R7). -/
def maxN : Nat := 65790
/-- `MAX_FRAME`, the largest frame and the capacity of the framer window (R7). -/
def maxFrame : Nat := 65797
/-- A CRC operand buffer has fewer bytes than this (R40: `0 <= L < 2^31`). -/
def bufLimit : Nat := 2147483648
/-- ASCII 'A' (R70). -/
def upperA : Nat := 0x41
/-- ASCII 'a' (R70). -/
def lowerA : Nat := 0x61

/-- Where scanning resumes after a payload-CRC failure (R137, open behaviour U3).  `syncPlus1` is the adopted
policy of R125 (conflict C2, decision D9); `skipAttempt` is the alternative R137 describes. -/
inductive ResumePolicy where
  | syncPlus1
  | skipAttempt
  deriving DecidableEq, Repr

/-- `PAYLOAD_FAIL_RESUME = SYNC_PLUS_1` (R7, conflict C2, decision D9).  Every framer function takes the policy
as an argument; the machine runs with this one. -/
def payloadFailResume : ResumePolicy := .syncPlus1

/-! ## Left open (R8): `SRC_W` -/

/-- FREE VALUE: `SRC_W`, the width in bits of the opaque origin identifier of an Event (R8, R160, decision D21), of
which nothing is known.  DESIGN CHOICE, assumption 5 (safe). -/
opaque srcW : Nat

/-! ## Left open (R8): `HOUSE_TABLE` -/

/-- An admissible house-code table (R8, R68): a bijection from the 16 letters, indexed 0 for 'A' to 15 for 'P',
to the nibble values 0..15 that is not the alphabetical map. -/
structure HouseTable where
  perm : Equiv.Perm (Fin 16)
  notAlphabetical : perm ≠ Equiv.refl (Fin 16)

/-- The nibbles of the suggested X10 table in letter order 'A'..'P' (R68, from general knowledge, not in the
source). -/
def x10Nibble : Fin 16 → Fin 16 :=
  ![0x6, 0xE, 0x2, 0xA, 0x1, 0x9, 0x5, 0xD, 0x7, 0xF, 0x3, 0xB, 0x0, 0x8, 0x4, 0xC]

/-- The letter index of each nibble in the suggested X10 table. -/
def x10Letter : Fin 16 → Fin 16 :=
  ![0xC, 0x4, 0x2, 0xA, 0xE, 0x6, 0x0, 0x8, 0xD, 0x5, 0x3, 0xB, 0xF, 0x7, 0x1, 0x9]

/-- The suggested X10 instantiation (R68): an example of an admissible table, used by the tests.  It is not the
machine's table, which is free. -/
def x10HouseTable : HouseTable where
  perm := ⟨x10Nibble, x10Letter, by decide, by decide⟩
  notAlphabetical := by
    intro h
    have h0 : x10Nibble 0 = 0 := congrArg (fun p : Equiv.Perm (Fin 16) => p 0) h
    exact absurd h0 (by decide)

/-- FREE VALUE: an arbitrary bijection of 0..15, of which nothing is known.  DESIGN CHOICE, assumption 1 (safe). -/
opaque freeHousePerm : Equiv.Perm (Fin 16)

/-- The admissible table a bijection gives: itself, and where it is the alphabetical map, which R8 excludes, another
admissible table in its place.  Over all bijections this ranges over exactly the admissible tables. -/
def HouseTable.ofPerm (p : Equiv.Perm (Fin 16)) : HouseTable :=
  if h : p = Equiv.refl (Fin 16) then x10HouseTable else ⟨p, h⟩

/-- `HOUSE_TABLE` (R8, decision D14, open behaviour U5): some admissible table.  A claim about it is a claim about
every admissible table.  DESIGN CHOICE, assumption 1 (safe). -/
def houseTable : HouseTable := HouseTable.ofPerm freeHousePerm

end Sys2Proof.Config
end

