-- ==== Sys2Proof/Syntax.lean ====
section
/-! DEFINITION. The operations of CORE (spec 30_encoding.md R71, spec/opcode_table.json), one constructor per row,
and the command a caller presents: an operation code beside typed operand ports. -/

namespace Sys2Proof

/-- The opaque origin identifier of an Event, a value of `SRC_W` bits (R8, R160).  CORE stores and returns it and
never inspects it. -/
abbrev Source := BitVec Config.srcW

/-- An Event (R160): an immutable record of an opaque source and two nibbles.  An AddressEvent is the same record
with no tag, its high nibble read as a house code and its low nibble as a device code. -/
structure Event where
  source : Source
  highNibble : Nibble
  lowNibble : Nibble
  deriving DecidableEq, Repr

/-- The operations of R71, each with its operands in the order of that table.  `none` for a buffer is `absent`. -/
inductive Instr where
  /-- `CRC8.GENTABLE` (R93) -/
  | crc8GenTable
  /-- `CRC8.CALC buf` (R95) -/
  | crc8Calc (buf : Option (List Byte))
  /-- `CRC8.CALCR buf, offset, length` (R96) -/
  | crc8CalcR (buf : Option (List Byte)) (offset length : SInt32)
  /-- `HDR.VALIDATE h`: the 6 bytes on a 48-bit port, byte 0 most significant (R112, R61) -/
  | hdrValidate (h : BitVec 48)
  /-- `FRM.PUSH b` (R126) -/
  | frmPush (b : Byte)
  /-- `FRM.FEED bytes` (R127) -/
  | frmFeed (bytes : List Byte)
  /-- `FRM.CLEAR` (R128) -/
  | frmClear
  /-- `PKT.ENCODE type, data, optData` (R150) -/
  | pktEncode (ty : Byte) (data optData : List Byte)
  /-- `ADR.ENCH c` (R167) -/
  | adrEncH (c : Byte)
  /-- `ADR.DECH n` (R168) -/
  | adrDecH (n : Nibble)
  /-- `ADR.ENCD d` (R169) -/
  | adrEncD (d : SInt32)
  /-- `ADR.DECD n` (R170) -/
  | adrDecD (n : Nibble)
  /-- `EVT.NEW source, hi, lo` (R161) -/
  | evtNew (source : Source) (hi lo : Nibble)
  /-- `AEV.NEW source, c, d` (R171) -/
  | aevNew (source : Source) (c : Byte) (d : SInt32)
  /-- `AEV.HOUSE e` (R172) -/
  | aevHouse (e : Event)
  /-- `AEV.DEVICE e` (R173) -/
  | aevDevice (e : Event)
  /-- `EVT.BYTE e` (R162) -/
  | evtByte (e : Event)
  /-- `AEV.SHOW e` (R174) -/
  | aevShow (e : Event)
  deriving DecidableEq, Repr

/-- The operand ports that stand beside the operation code (R71: "operands travel beside the code as typed values,
not as bit fields of an instruction word"), under the names spec/opcode_table.json gives the operands.  An
operation looks at its own ports only.  DESIGN CHOICE, assumption 3. -/
structure Ports where
  buf : Option (List Byte)
  offset : SInt32
  length : SInt32
  hdr : BitVec 48
  b : Byte
  bytes : List Byte
  ty : Byte
  data : List Byte
  optData : List Byte
  ch : Byte
  n : Nibble
  code : SInt32
  source : Source
  hi : Nibble
  lo : Nibble
  house : Byte
  device : SInt32
  e : Event
  deriving DecidableEq, Repr

/-- Every port at zero: no buffer, no bytes, every number 0. -/
def Ports.zero : Ports where
  buf := none
  offset := 0
  length := 0
  hdr := 0
  b := 0
  bytes := []
  ty := 0
  data := []
  optData := []
  ch := 0
  n := 0
  code := 0
  source := 0
  hi := 0
  lo := 0
  house := 0
  device := 0
  e := { source := 0, highNibble := 0, lowNibble := 0 }

/-- One command as a caller presents it (R71): the 8-bit operation code `op` and the operand ports. -/
structure Command where
  op : Byte
  ports : Ports
  deriving DecidableEq, Repr

end Sys2Proof
end

