-- ==== Sys2Proof/WellFormed.lean ====
section
/-! DEFINITION. What an operand port can carry (spec 20_memory.md R40, 43_encoder.md R150). -/

namespace Sys2Proof

/-- A CRC operand buffer: absent, or a byte sequence of length `L` with `0 <= L < 2^31` (R40, R96). -/
def bufPresentable (buf : Option (List Byte)) : Bool :=
  match buf with
  | none => true
  | some bs => decide (bs.length < Config.bufLimit)

/-- The encoder's segments: `|data| <= 65535`, `|optData| <= 255`, the widths of the two length ports (R150). -/
def segmentsPresentable (data optData : List Byte) : Bool :=
  decide (data.length ≤ Config.maxDl) && decide (optData.length ≤ Config.maxOl)

/-- The operands can be presented at CORE's ports.  Every other operand's type already holds only presentable
values. -/
def Instr.wellFormed : Instr → Bool
  | .crc8GenTable => true
  | .crc8Calc buf => bufPresentable buf
  | .crc8CalcR buf _ _ => bufPresentable buf
  | .hdrValidate _ => true
  | .frmPush _ => true
  | .frmFeed _ => true
  | .frmClear => true
  | .pktEncode _ data optData => segmentsPresentable data optData
  | .adrEncH _ => true
  | .adrDecH _ => true
  | .adrEncD _ => true
  | .adrDecD _ => true
  | .evtNew _ _ _ => true
  | .aevNew _ _ _ => true
  | .aevHouse _ => true
  | .aevDevice _ => true
  | .evtByte _ => true
  | .aevShow _ => true

end Sys2Proof
end

