-- ==== Sys2Proof/Decode.lean ====
section
/-! DEFINITION. Decoding a command and encoding an instruction (spec 30_encoding.md R71, R72;
spec/opcode_table.json). -/

namespace Sys2Proof

/-- One row of the operation map (R71): the operation code, the mnemonic, and how the operation reads its operand
ports. -/
structure OpRow where
  op : Byte
  mnemonic : String
  build : Ports → Instr

/-- The operation map of R71, row by row. -/
def opRows : List OpRow := [
  ⟨0x10, "CRC8.GENTABLE", fun _ => .crc8GenTable⟩,
  ⟨0x11, "CRC8.CALC", fun p => .crc8Calc p.buf⟩,
  ⟨0x12, "CRC8.CALCR", fun p => .crc8CalcR p.buf p.offset p.length⟩,
  ⟨0x20, "HDR.VALIDATE", fun p => .hdrValidate p.hdr⟩,
  ⟨0x30, "FRM.PUSH", fun p => .frmPush p.b⟩,
  ⟨0x31, "FRM.FEED", fun p => .frmFeed p.bytes⟩,
  ⟨0x32, "FRM.CLEAR", fun _ => .frmClear⟩,
  ⟨0x40, "PKT.ENCODE", fun p => .pktEncode p.ty p.data p.optData⟩,
  ⟨0x50, "ADR.ENCH", fun p => .adrEncH p.ch⟩,
  ⟨0x51, "ADR.DECH", fun p => .adrDecH p.n⟩,
  ⟨0x52, "ADR.ENCD", fun p => .adrEncD p.code⟩,
  ⟨0x53, "ADR.DECD", fun p => .adrDecD p.n⟩,
  ⟨0x54, "EVT.NEW", fun p => .evtNew p.source p.hi p.lo⟩,
  ⟨0x55, "AEV.NEW", fun p => .aevNew p.source p.house p.device⟩,
  ⟨0x56, "AEV.HOUSE", fun p => .aevHouse p.e⟩,
  ⟨0x57, "AEV.DEVICE", fun p => .aevDevice p.e⟩,
  ⟨0x58, "EVT.BYTE", fun p => .evtByte p.e⟩,
  ⟨0x59, "AEV.SHOW", fun p => .aevShow p.e⟩]

/-- Why a command is not decoded. -/
inductive DecodeError where
  /-- The operation code is not in the map: the machine answers the fault response `InvalidArgument` (R72). -/
  | illegalOp (op : Byte)
  /-- An operand no port can carry (R40, R150): such a command cannot be presented to CORE.  Assumption 6. -/
  | operandNotPresentable
  deriving DecidableEq, Repr

/-- The row of the map with this operation code, if there is one. -/
def opRow? (op : Byte) : Option OpRow := opRows.find? (fun r => r.op == op)

/-- Decode a command: total, on every operation code and every port value.  An illegal operation code is rejected
before any operand is looked at (R196(d)). -/
def decode (c : Command) : Except DecodeError Instr :=
  match opRow? c.op with
  | none => .error (.illegalOp c.op)
  | some r =>
    if (r.build c.ports).wellFormed then .ok (r.build c.ports) else .error .operandNotPresentable

/-- The unit field `op[7:4]` of an operation code (R71). -/
def opUnit (op : Byte) : Nibble := op.extractLsb' 4 4

/-- The function field `op[3:0]` of an operation code (R71). -/
def opFunction (op : Byte) : Nibble := op.extractLsb' 0 4

/-- The operation code of an instruction, unit nibble then function nibble (R71; units: 1 CRC8 engine, 2 header
model, 3 framer, 4 encoder, 5 address/event model). -/
def Instr.opcode : Instr → Byte
  | .crc8GenTable => 0x10
  | .crc8Calc _ => 0x11
  | .crc8CalcR _ _ _ => 0x12
  | .hdrValidate _ => 0x20
  | .frmPush _ => 0x30
  | .frmFeed _ => 0x31
  | .frmClear => 0x32
  | .pktEncode _ _ _ => 0x40
  | .adrEncH _ => 0x50
  | .adrDecH _ => 0x51
  | .adrEncD _ => 0x52
  | .adrDecD _ => 0x53
  | .evtNew _ _ _ => 0x54
  | .aevNew _ _ _ => 0x55
  | .aevHouse _ => 0x56
  | .aevDevice _ => 0x57
  | .evtByte _ => 0x58
  | .aevShow _ => 0x59

/-- The mnemonic of an instruction (R71). -/
def Instr.mnemonic : Instr → String
  | .crc8GenTable => "CRC8.GENTABLE"
  | .crc8Calc _ => "CRC8.CALC"
  | .crc8CalcR _ _ _ => "CRC8.CALCR"
  | .hdrValidate _ => "HDR.VALIDATE"
  | .frmPush _ => "FRM.PUSH"
  | .frmFeed _ => "FRM.FEED"
  | .frmClear => "FRM.CLEAR"
  | .pktEncode _ _ _ => "PKT.ENCODE"
  | .adrEncH _ => "ADR.ENCH"
  | .adrDecH _ => "ADR.DECH"
  | .adrEncD _ => "ADR.ENCD"
  | .adrDecD _ => "ADR.DECD"
  | .evtNew _ _ _ => "EVT.NEW"
  | .aevNew _ _ _ => "AEV.NEW"
  | .aevHouse _ => "AEV.HOUSE"
  | .aevDevice _ => "AEV.DEVICE"
  | .evtByte _ => "EVT.BYTE"
  | .aevShow _ => "AEV.SHOW"

/-- The operand ports of an instruction: its own operands on its own ports, every other port at zero. -/
def Instr.ports : Instr → Ports
  | .crc8GenTable => Ports.zero
  | .crc8Calc buf => { Ports.zero with buf := buf }
  | .crc8CalcR buf offset length => { Ports.zero with buf := buf, offset := offset, length := length }
  | .hdrValidate h => { Ports.zero with hdr := h }
  | .frmPush b => { Ports.zero with b := b }
  | .frmFeed bytes => { Ports.zero with bytes := bytes }
  | .frmClear => Ports.zero
  | .pktEncode ty data optData => { Ports.zero with ty := ty, data := data, optData := optData }
  | .adrEncH c => { Ports.zero with ch := c }
  | .adrDecH n => { Ports.zero with n := n }
  | .adrEncD d => { Ports.zero with code := d }
  | .adrDecD n => { Ports.zero with n := n }
  | .evtNew source hi lo => { Ports.zero with source := source, hi := hi, lo := lo }
  | .aevNew source c d => { Ports.zero with source := source, house := c, device := d }
  | .aevHouse e => { Ports.zero with e := e }
  | .aevDevice e => { Ports.zero with e := e }
  | .evtByte e => { Ports.zero with e := e }
  | .aevShow e => { Ports.zero with e := e }

/-- Encode an instruction as the command that requests it (R71). -/
def encode (i : Instr) : Command := { op := i.opcode, ports := i.ports }

/-- The instruction works on a framer instance (unit 3 of R71); every other one is pure (R45). -/
def Instr.usesFramer : Instr → Bool
  | .frmPush _ => true
  | .frmFeed _ => true
  | .frmClear => true
  | .crc8GenTable => false
  | .crc8Calc _ => false
  | .crc8CalcR _ _ _ => false
  | .hdrValidate _ => false
  | .pktEncode _ _ _ => false
  | .adrEncH _ => false
  | .adrDecH _ => false
  | .adrEncD _ => false
  | .adrDecD _ => false
  | .evtNew _ _ _ => false
  | .aevNew _ _ _ => false
  | .aevHouse _ => false
  | .aevDevice _ => false
  | .evtByte _ => false
  | .aevShow _ => false

/-- A command whose operation code is a framer operation of the map. -/
def Command.usesFramer (c : Command) : Bool :=
  match opRow? c.op with
  | none => false
  | some r => (r.build c.ports).usesFramer

/-- The command whose 8-bit operation code is `w` and whose operand ports are all zero. -/
def tableCommand (w : Nat) : Command := { op := BitVec.ofNat 8 w, ports := Ports.zero }

/-- The instruction the decoder reads from a table word: operation codes are 8 bits wide (R74), and the operands,
which the table gives no bits, are zero. -/
def decodeTableWord (nbits w : Nat) : Option Instr :=
  if nbits = 8 ∧ w < 256 then
    match decode (tableCommand w) with
    | .ok i => some i
    | .error _ => none
  else none

end Sys2Proof
end

