-- ==== Sys2Proof/Machine/State.lean ====
section
/-! DEFINITION. The state of CORE (spec 10_state.md), the values its operations answer (spec 00_scope.md R14,
30_encoding.md R66, 42_framer.md R129) and the requests its callers make (spec 20_memory.md R47). -/

namespace Sys2Proof.Machine

/-! ## The framer -/

/-- `st`, the framer's sequencing state (R22). -/
inductive FramerState where
  | seekingSync
  | readingHeader
  | readingBody
  | emitting
  deriving DecidableEq, Repr

/-- One framer instance (R20, R32): its sequencing state `st` (R22) and its window `q` (R23), the bytes retained
from the current sync candidate onward, oldest first. -/
structure Framer where
  st : FramerState
  q : List Byte
  deriving DecidableEq, Repr

/-- A framer at reset: `SeekingSync` with an empty window (R33, R220). -/
def Framer.reset : Framer := { st := .seekingSync, q := [] }

/-! ## The values operations answer -/

/-- A Packet (R66). -/
structure Packet where
  sync : Byte
  dataLength : BitVec 16
  optLength : Byte
  type : Byte
  headerCrc : Byte
  data : List Byte
  optData : List Byte
  payloadCrc : Byte
  deriving DecidableEq, Repr

/-- The three reports (R14, R193, R194); a report carries its kind only. -/
inductive ReportKind where
  | badSync
  | badHeaderCrc
  | badPayloadCrc
  deriving DecidableEq, Repr

/-- An element of a framer operation's event list (R129). -/
inductive FramerEvent where
  | packet (p : Packet)
  | report (k : ReportKind)
  deriving DecidableEq, Repr

/-- The result of `HdrValidate` (R111). -/
inductive HdrVerdict where
  | ok
  | badSync
  | badHeaderCrc
  deriving DecidableEq, Repr

/-- What the response of a framer operation carries beside its result (decision D1): the event list and the two
status outputs (R28).  `FRM.PUSH` answers these (R126), and `FRM.CLEAR`, which has no result, answers no more. -/
structure PushResult where
  events : List FramerEvent
  pending : Nat
  needMore : Bool
  deriving DecidableEq, Repr

/-- The response fields of `FRM.FEED` (R127, R129). -/
structure FeedResult where
  packets : List Packet
  reports : List ReportKind
  allEvents : List FramerEvent
  bytesConsumed : Nat
  pending : Nat
  needMore : Bool
  deriving DecidableEq, Repr

/-- The result fields of a normal response, one shape for each result column of R71. -/
inductive Result where
  /-- 256 table bytes (`CRC8.GENTABLE`) -/
  | table (bytes : List Byte)
  /-- one byte (`CRC8.CALC`, `CRC8.CALCR`, `EVT.BYTE`) -/
  | byte (b : Byte)
  /-- `Ok`, `BadSync` or `BadHeaderCRC` (`HDR.VALIDATE`) -/
  | header (v : HdrVerdict)
  /-- `FRM.PUSH` -/
  | push (r : PushResult)
  /-- `FRM.FEED` -/
  | feed (r : FeedResult)
  /-- no result (R71, R128), but the event list, empty, and the status outputs of every framer response (R28)
  (`FRM.CLEAR`) -/
  | cleared (r : PushResult)
  /-- the bytes of a frame (`PKT.ENCODE`) -/
  | frame (bytes : List Byte)
  /-- a nibble (`ADR.ENCH`, `ADR.ENCD`) -/
  | nibble (n : Nibble)
  /-- a character code (`ADR.DECH`, `AEV.HOUSE`) -/
  | char (c : Byte)
  /-- a device code, an integer 1..16 (`ADR.DECD`, `AEV.DEVICE`) -/
  | device (d : Nat)
  /-- an Event (`EVT.NEW`, `AEV.NEW`) -/
  | event (e : Event)
  /-- the three components of `AEV.SHOW` -/
  | shown (source : Source) (house : Byte) (device : Nat)
  deriving DecidableEq, Repr

/-- The cause of a fault response; there is only one (R190, R191), and it carries nothing (R191). -/
inductive FaultCause where
  | invalidArgument
  deriving DecidableEq, Repr

/-- The response that ends an operation (R14): status `OK` with the result fields, or status `FAULT` with the
cause and no result. -/
inductive Response where
  | ok (r : Result)
  | fault (c : FaultCause)
  deriving DecidableEq, Repr

/-! ## Requests -/

/-- One operation a caller issues: who issues it, the framer instance it is addressed to (R32; the pure operations
belong to no instance and ignore it), and the command. -/
structure Request where
  caller : Nat
  framer : Nat
  cmd : Command
  deriving DecidableEq, Repr

/-! ## The state -/

/-- The state of the machine.

`framers` is the spec's own state (R20, R22, R23), for every framer instance (R32): the pair (`k`, `f`) says that
instance `k` is `f`; an instance that is not listed is at reset.  It is kept in one canonical form (`Bank.wf`).
The constant table `TBL` (R21) is the constant `tbl` of Machine/Ops.lean, as R21 allows and R31 demands.

The other four fields are the MODEL'S, not the spec's (assumption 4): `inbox` holds the operations issued and not
yet performed, in the order of issue, each entry being the group of operations in flight at the same time;
`caller` and `sel` name the caller and the framer instance of the operation last taken; `response` is the response
that the last step handed to that caller. -/
structure State where
  framers : List (Nat × Framer)
  inbox : List (List Request)
  caller : Nat
  sel : Nat
  response : Option Response
  deriving DecidableEq, Repr

/-- The machine right after reset (R33, R220): every framer instance `SeekingSync` with an empty window.  No
operation has been issued, taken or answered (assumption 4). -/
def State.reset : State where
  framers := []
  inbox := []
  caller := 0
  sel := 0
  response := none

/-- Host-level faults: none.  CORE never stops: its only fault is a response the caller gets in place of a result
(R14, R192: "it runs normally"), which is a next state here, so no step ever ends in a `Fault` and nothing raises
one.  Safe: there is nothing to raise. -/
inductive Fault where
  deriving DecidableEq, Repr

/-- Why the machine gives a request no meaning. -/
inductive Refusal where
  /-- Raised by an arm of `exec` whose instruction has no meaning yet; no arm does.  Safe. -/
  | notModelled (mnemonic : String)
  /-- Raised by `step` when two framer operations on one framer instance are in flight at the same time (R48, open
  behaviour U1: "it must refuse (not interleave) them").  Safe: nothing is claimed of such a state. -/
  | concurrentFramerUse
  /-- Raised by `step` when a command carries an operand that no port can carry: a CRC buffer of `2^31` bytes or
  more (R40) or an encoder segment longer than its length port counts (R150).  Safe: the spec says such an operand
  cannot be presented.  Assumption 6. -/
  | operandNotPresentable
  deriving DecidableEq, Repr

end Sys2Proof.Machine
end

