-- ==== Sys2Proof/Machine/Ops.lean ====
section
/-! DEFINITION. The named operations over CORE's spaces, its framer instances and its responses (spec 00_scope.md
R11, R13; 20_memory.md R40; 60_exceptions.md R192). -/

namespace Sys2Proof.Machine

/-! ## Byte sequences (R11, R13) -/

/-- `s[a:b]`, the elements with index `i`, `a <= i < b` (R11). -/
def slice (s : List Byte) (a b : Nat) : List Byte := (s.take b).drop a

/-- `s[i]`.  Every read of the rules is in range, since the checks come first; outside the range (which only a
state no run reaches can ask for) it reads 0x00.  Assumption 7. -/
def byteAt (s : List Byte) (i : Nat) : Byte := s.getD i 0

/-- `MemRead(space, addr, n)` (R13, R40), the space given by its bytes. -/
def memRead (space : List Byte) (addr n : Nat) : List Byte := slice space addr (addr + n)

/-- The one form of `MemWrite(Q, ...)` that adds: append one byte at index `|q|` (R40). -/
def qAppend (q : List Byte) (b : Byte) : List Byte := q ++ [b]

/-- The one form of `MemWrite(Q, ...)` that removes: drop the first `k` elements (R40). -/
def qDrop (q : List Byte) (k : Nat) : List Byte := q.drop k

/-- A big-endian 16-bit number from its two bytes: `(hi << 8) | lo` (R41, R63). -/
def be16 (hi lo : Byte) : BitVec 16 := (hi.zeroExtend 16 <<< 8) ||| lo.zeroExtend 16

/-- Bits 15:8 of a 16-bit number (R41). -/
def hiByte (v : BitVec 16) : Byte := v.extractLsb' 8 8

/-- Bits 7:0 of a 16-bit number (R41). -/
def loByte (v : BitVec 16) : Byte := v.extractLsb' 0 8

/-! ## The constant table `TBL` (R21, R91, R92) -/

/-- The rows of `TBL` as R92 prints them: row `r`, column `k` holds `TBL[16*r + k]`. -/
def tblRows : List (List Byte) := [
  [0x00, 0x07, 0x0E, 0x09, 0x1C, 0x1B, 0x12, 0x15, 0x38, 0x3F, 0x36, 0x31, 0x24, 0x23, 0x2A, 0x2D],
  [0x70, 0x77, 0x7E, 0x79, 0x6C, 0x6B, 0x62, 0x65, 0x48, 0x4F, 0x46, 0x41, 0x54, 0x53, 0x5A, 0x5D],
  [0xE0, 0xE7, 0xEE, 0xE9, 0xFC, 0xFB, 0xF2, 0xF5, 0xD8, 0xDF, 0xD6, 0xD1, 0xC4, 0xC3, 0xCA, 0xCD],
  [0x90, 0x97, 0x9E, 0x99, 0x8C, 0x8B, 0x82, 0x85, 0xA8, 0xAF, 0xA6, 0xA1, 0xB4, 0xB3, 0xBA, 0xBD],
  [0xC7, 0xC0, 0xC9, 0xCE, 0xDB, 0xDC, 0xD5, 0xD2, 0xFF, 0xF8, 0xF1, 0xF6, 0xE3, 0xE4, 0xED, 0xEA],
  [0xB7, 0xB0, 0xB9, 0xBE, 0xAB, 0xAC, 0xA5, 0xA2, 0x8F, 0x88, 0x81, 0x86, 0x93, 0x94, 0x9D, 0x9A],
  [0x27, 0x20, 0x29, 0x2E, 0x3B, 0x3C, 0x35, 0x32, 0x1F, 0x18, 0x11, 0x16, 0x03, 0x04, 0x0D, 0x0A],
  [0x57, 0x50, 0x59, 0x5E, 0x4B, 0x4C, 0x45, 0x42, 0x6F, 0x68, 0x61, 0x66, 0x73, 0x74, 0x7D, 0x7A],
  [0x89, 0x8E, 0x87, 0x80, 0x95, 0x92, 0x9B, 0x9C, 0xB1, 0xB6, 0xBF, 0xB8, 0xAD, 0xAA, 0xA3, 0xA4],
  [0xF9, 0xFE, 0xF7, 0xF0, 0xE5, 0xE2, 0xEB, 0xEC, 0xC1, 0xC6, 0xCF, 0xC8, 0xDD, 0xDA, 0xD3, 0xD4],
  [0x69, 0x6E, 0x67, 0x60, 0x75, 0x72, 0x7B, 0x7C, 0x51, 0x56, 0x5F, 0x58, 0x4D, 0x4A, 0x43, 0x44],
  [0x19, 0x1E, 0x17, 0x10, 0x05, 0x02, 0x0B, 0x0C, 0x21, 0x26, 0x2F, 0x28, 0x3D, 0x3A, 0x33, 0x34],
  [0x4E, 0x49, 0x40, 0x47, 0x52, 0x55, 0x5C, 0x5B, 0x76, 0x71, 0x78, 0x7F, 0x6A, 0x6D, 0x64, 0x63],
  [0x3E, 0x39, 0x30, 0x37, 0x22, 0x25, 0x2C, 0x2B, 0x06, 0x01, 0x08, 0x0F, 0x1A, 0x1D, 0x14, 0x13],
  [0xAE, 0xA9, 0xA0, 0xA7, 0xB2, 0xB5, 0xBC, 0xBB, 0x96, 0x91, 0x98, 0x9F, 0x8A, 0x8D, 0x84, 0x83],
  [0xDE, 0xD9, 0xD0, 0xD7, 0xC2, 0xC5, 0xCC, 0xCB, 0xE6, 0xE1, 0xE8, 0xEF, 0xFA, 0xFD, 0xF4, 0xF3]]

/-- `TBL`: the 256 bytes of R92 in index order (R21).  A read-only constant: no operation writes it, it is the same
in every instance, and it is valid before the first operation (R31, R33, R221). -/
def tbl : List Byte := tblRows.flatten

/-- `MemRead(TBL, i, 1)` (R40): row `i[7:4]`, column `i[3:0]` of R92. -/
def tblRead (i : Byte) : Byte := byteAt (tblRows.getD (i.toNat / 16) []) (i.toNat % 16)

/-- One of the 8 rounds of the table's derivation (R91). -/
def crcShift (c : Byte) : Byte := if c.getLsbD 7 then (c <<< 1) ^^^ Config.poly else c <<< 1

/-- The table entry `i` as R91 derives it from the polynomial. -/
def crcDerive (i : Byte) : Byte :=
  crcShift (crcShift (crcShift (crcShift (crcShift (crcShift (crcShift (crcShift i)))))))

/-- `Crc8Step(c, b) = MemRead(TBL, c XOR b, 1)` (R90). -/
def crc8Step (c b : Byte) : Byte := tblRead (c ^^^ b)

/-- `Crc8From(c0, s)`: the left fold of `Crc8Step` from `c0` (R94). -/
def crc8From (c : Byte) (s : List Byte) : Byte := s.foldl crc8Step c

/-- `Crc8(s)`: the fold from the seed 0 (R94, R42: no reflection, no final XOR). -/
def crc8 (s : List Byte) : Byte := crc8From Config.crcSeed s

/-! ## The framer instances (R32) -/

/-- The framer instance `k`: an unlisted one is at reset. -/
def Bank.get : List (Nat × Framer) → Nat → Framer
  | [], _ => Framer.reset
  | (j, f) :: rest, k => if k = j then f else Bank.get rest k

/-- Put a framer in front, unless it is at reset, which is not listed. -/
def Bank.put (k : Nat) (f : Framer) (rest : List (Nat × Framer)) : List (Nat × Framer) :=
  if f = Framer.reset then rest else (k, f) :: rest

/-- Write the framer instance `k`, keeping the canonical form. -/
def Bank.set : List (Nat × Framer) → Nat → Framer → List (Nat × Framer)
  | [], k, f => Bank.put k f []
  | (j, g) :: rest, k, f =>
    if k < j then Bank.put k f ((j, g) :: rest)
    else if k = j then Bank.put k f rest
    else (j, g) :: Bank.set rest k f

/-- The canonical form of the listed instances: numbers strictly rising, none at reset.  Equal banks are equal
lists. -/
abbrev Bank.wf (b : List (Nat × Framer)) : Prop :=
  b.Pairwise (fun x y => x.1 < y.1) ∧ ∀ x ∈ b, x.2 ≠ Framer.reset

/-- The framer instance `k` of a state. -/
def State.framer (s : State) (k : Nat) : Framer := Bank.get s.framers k

/-- Write the framer instance `k` of a state. -/
def State.setFramer (s : State) (k : Nat) (f : Framer) : State := { s with framers := Bank.set s.framers k f }

/-- Reset of one framer instance (R220: "the event that creates a CORE instance", construction of a new framer):
`st = SeekingSync`, `q = []`. -/
def State.resetFramer (s : State) (k : Nat) : State := s.setFramer k Framer.reset

/-! ## Responses: a normal end, and the fault (R14, R192) -/

/-- Hand a response to the caller. -/
def State.answer (s : State) (r : Response) : State := { s with response := some r }

/-- `return v`: the normal response, status `OK` (R13, R14). -/
def respond (r : Result) (s : State) : Host.Outcome State Fault Refusal := .next (s.answer (.ok r))

/-- `raise InvalidArgument`: the one fault of CORE.  It is delivered as the response of the operation and changes
nothing else: nothing is saved, no mode changes, control goes nowhere, and the next operation runs normally (R192).
There is no return from it (R198). -/
def raiseInvalidArgument (s : State) : Host.Outcome State Fault Refusal :=
  .next (s.answer (.fault .invalidArgument))

/-! ## Taking a request (R47, R48) -/

/-- Two requests clash: both are framer operations and both are addressed to the same instance (R48). -/
def Request.clashes (r r' : Request) : Bool :=
  decide (r.framer = r'.framer) && (r.cmd.usesFramer && r'.cmd.usesFramer)

/-- Two requests of a group of operations in flight at the same time clash. -/
def groupClashes : List Request → Bool
  | [] => false
  | r :: rs => rs.any r.clashes || groupClashes rs

/-- What the machine finds when it looks for the next operation. -/
inductive Fetched where
  /-- no operation is issued -/
  | idle (s : State)
  /-- two operations in flight operate one framer instance -/
  | clash
  /-- the next operation, and the state in which it runs -/
  | request (c : Command) (s : State)

/-- Drop the first request of the first group; a group that is done leaves the inbox. -/
def popGroup (rs : List Request) (rest : List (List Request)) : List (List Request) :=
  if rs = [] then rest else rs :: rest

/-- A step in which no operation is performed: nothing changes and nobody is answered (R206). -/
def State.idle (s : State) (rest : List (List Request)) : State := { s with inbox := rest, response := none }

/-- The state in which the request `r` runs: it is taken from the inbox, and its caller and its framer instance are
selected. -/
def State.accept (s : State) (r : Request) (rest : List (List Request)) : State :=
  { s with inbox := rest, caller := r.caller, sel := r.framer }

/-- Look for the next operation: operations are performed one at a time, in the order issued (R47); operations in
flight at the same time are performed in any order that is one at a time, here the listed one, and they must not
operate one framer instance (R48, R204). -/
def fetch (s : State) : Fetched :=
  match s.inbox with
  | [] => .idle (s.idle [])
  | [] :: rest => .idle (s.idle rest)
  | (r :: rs) :: rest =>
    if groupClashes (r :: rs) then .clash else .request r.cmd (s.accept r (popGroup rs rest))

end Sys2Proof.Machine
end

