-- ==== Sys2Proof/Machine/Operands.lean ====
section
/-! DEFINITION. The operand forms: the range of a CRC over part of a buffer, the 48-bit header port, character
codes and device codes (spec 40_crc8.md R96, 41_header.md R112, 44_address.md R163 to R166). -/

namespace Sys2Proof.Machine

/-- The four checks of `CRC8.CALCR` in the order of R96: the buffer is present, `offset` and `length` are not
negative, and `offset + length` does not exceed `L`, all over the mathematical integers (R12).  Answers the bytes of
the range, or `none` where a check fails. -/
def crcRange (buf : Option (List Byte)) (offset length : SInt32) : Option (List Byte) :=
  match buf with
  | none => none
  | some bs =>
    if offset.toInt < 0 then none
    else if length.toInt < 0 then none
    else if offset.toInt + length.toInt > (bs.length : Int) then none
    else some (memRead bs offset.toInt.toNat length.toInt.toNat)

/-- The 6 bytes of the header port, byte 0 most significant (R61, R112). -/
def hdrBytes (h : BitVec 48) : List Byte :=
  [h.extractLsb' 40 8, h.extractLsb' 32 8, h.extractLsb' 24 8, h.extractLsb' 16 8, h.extractLsb' 8 8,
    h.extractLsb' 0 8]

/-- The letter index 0..15 of a house-code character, upper or lower case (R70, R163); 32 of the 256 codes have
one. -/
def houseIndex (c : Byte) : Option (Fin 16) :=
  if h : Config.upperA ≤ c.toNat ∧ c.toNat < Config.upperA + 16 then
    some ⟨c.toNat - Config.upperA, by omega⟩
  else if h : Config.lowerA ≤ c.toNat ∧ c.toNat < Config.lowerA + 16 then
    some ⟨c.toNat - Config.lowerA, by omega⟩
  else none

/-- `HouseEnc(c)` under a house-code table (R163); `none` where it is undefined. -/
def houseEncWith (t : Config.HouseTable) (c : Byte) : Option Nibble :=
  match houseIndex c with
  | none => none
  | some k => some (BitVec.ofFin (t.perm k))

/-- `HouseDec(n)` under a house-code table: the upper-case letter whose nibble is `n` (R164). -/
def houseDecWith (t : Config.HouseTable) (n : Nibble) : Byte :=
  BitVec.ofNat 8 (Config.upperA + (t.perm.symm n.toFin).val)

/-- `HouseEnc(c)` under the machine's table (R163). -/
def houseEnc (c : Byte) : Option Nibble := houseEncWith Config.houseTable c

/-- `HouseDec(n)` under the machine's table (R164). -/
def houseDec (n : Nibble) : Byte := houseDecWith Config.houseTable n

/-- `DevEnc(d)`: `d - 1` for `1 <= d <= 16`, a signed comparison; `none` elsewhere (R165, R176). -/
def devEnc (d : SInt32) : Option Nibble :=
  if 1 ≤ d.toInt ∧ d.toInt ≤ 16 then some (BitVec.ofNat 4 (d.toInt - 1).toNat) else none

/-- `DevDec(n) = n + 1`, an integer 1..16 (R166). -/
def devDec (n : Nibble) : Nat := n.toNat + 1

end Sys2Proof.Machine
end

