-- ==== Sys2Proof/Machine/Address.lean ====
section
/-! DEFINITION. The address/event model (spec 44_address.md). -/

namespace Sys2Proof.Machine

/-- The address byte of an Event: `(highNibble << 4) | lowNibble` (R67, R162). -/
def eventByte (e : Event) : Byte := (e.highNibble.zeroExtend 8 <<< 4) ||| e.lowNibble.zeroExtend 8

/-- `ADR.ENCH c`: house code to nibble (R167). -/
def execAdrEncH (c : Byte) (s : State) : Host.Outcome State Fault Refusal :=
  match houseEnc c with
  | none => raiseInvalidArgument s
  | some n => respond (.nibble n) s

/-- `ADR.DECH n`: nibble to house code (R168). -/
def execAdrDecH (n : Nibble) (s : State) : Host.Outcome State Fault Refusal :=
  respond (.char (houseDec n)) s

/-- `ADR.ENCD d`: device code to nibble (R169). -/
def execAdrEncD (d : SInt32) (s : State) : Host.Outcome State Fault Refusal :=
  match devEnc d with
  | none => raiseInvalidArgument s
  | some n => respond (.nibble n) s

/-- `ADR.DECD n`: nibble to device code (R170). -/
def execAdrDecD (n : Nibble) (s : State) : Host.Outcome State Fault Refusal :=
  respond (.device (devDec n)) s

/-- `EVT.NEW source, hi, lo` (R161). -/
def execEvtNew (source : Source) (hi lo : Nibble) (s : State) : Host.Outcome State Fault Refusal :=
  respond (.event { source := source, highNibble := hi, lowNibble := lo }) s

/-- `AEV.NEW source, c, d`: an Event from a house code and a device code; an invalid one of either faults (R171). -/
def execAevNew (source : Source) (c : Byte) (d : SInt32) (s : State) : Host.Outcome State Fault Refusal :=
  match houseEnc c with
  | none => raiseInvalidArgument s
  | some hi =>
    match devEnc d with
    | none => raiseInvalidArgument s
    | some lo => respond (.event { source := source, highNibble := hi, lowNibble := lo }) s

/-- `AEV.HOUSE e`: the decoded house code (R172). -/
def execAevHouse (e : Event) (s : State) : Host.Outcome State Fault Refusal :=
  respond (.char (houseDec e.highNibble)) s

/-- `AEV.DEVICE e`: the decoded device code (R173). -/
def execAevDevice (e : Event) (s : State) : Host.Outcome State Fault Refusal :=
  respond (.device (devDec e.lowNibble)) s

/-- `EVT.BYTE e`: the address byte (R162). -/
def execEvtByte (e : Event) (s : State) : Host.Outcome State Fault Refusal :=
  respond (.byte (eventByte e)) s

/-- `AEV.SHOW e`: the source, the house letter and the device code; their rendering as text is outside the model
(R174). -/
def execAevShow (e : Event) (s : State) : Host.Outcome State Fault Refusal :=
  respond (.shown e.source (houseDec e.highNibble) (devDec e.lowNibble)) s

end Sys2Proof.Machine
end

