-- ==== Sys2Proof/Machine/Crc8.lean ====
section
/-! DEFINITION. The CRC8 engine's operations (spec 40_crc8.md R93, R95, R96). -/

namespace Sys2Proof.Machine

/-- `CRC8.GENTABLE`: `MemRead(TBL, 0, 256)` (R93). -/
def execCrc8GenTable (s : State) : Host.Outcome State Fault Refusal :=
  respond (.table (memRead tbl 0 Config.tableSize)) s

/-- `CRC8.CALC buf`: the CRC8 of the whole buffer; an absent buffer faults (R95). -/
def execCrc8Calc (buf : Option (List Byte)) (s : State) : Host.Outcome State Fault Refusal :=
  match buf with
  | none => raiseInvalidArgument s
  | some bs => respond (.byte (crc8 bs)) s

/-- `CRC8.CALCR buf, offset, length`: the CRC8 of `buf[offset : offset + length]`; a failed check faults (R96). -/
def execCrc8CalcR (buf : Option (List Byte)) (offset length : SInt32) (s : State) :
    Host.Outcome State Fault Refusal :=
  match crcRange buf offset length with
  | none => raiseInvalidArgument s
  | some bs => respond (.byte (crc8 bs)) s

end Sys2Proof.Machine
end

