-- ==== Sys2Proof/Machine/Flags.lean ====
section
/-! DEFINITION. The status outputs (spec 10_state.md R28) and the numeric codes (spec 60_exceptions.md R201).
CORE has no stored flag. -/

namespace Sys2Proof.Machine

/-- `pending = |q|` (R28). -/
def Framer.pending (f : Framer) : Nat := f.q.length

/-- `need_more = (|q| > 0)` (R28). -/
def Framer.needMore (f : Framer) : Bool := decide (0 < f.q.length)

/-- The status outputs of a framer instance (R22, R28, R205). -/
structure Status where
  st : FramerState
  pending : Nat
  needMore : Bool
  deriving DecidableEq, Repr

/-- The status outputs of the framer instance `k`: readable at any time, a function of the window (R22, R28). -/
def State.status (s : State) (k : Nat) : Status where
  st := (s.framer k).st
  pending := (s.framer k).pending
  needMore := (s.framer k).needMore

/-- The 2-bit code of `st` (R22, R201). -/
def FramerState.code : FramerState → BitVec 2
  | .seekingSync => 0
  | .readingHeader => 1
  | .readingBody => 2
  | .emitting => 3

/-- The code of a report kind (R201). -/
def ReportKind.code : ReportKind → Nat
  | .badSync => 1
  | .badHeaderCrc => 2
  | .badPayloadCrc => 3

/-- The code of an `HDR.VALIDATE` result (R201). -/
def HdrVerdict.code : HdrVerdict → Nat
  | .ok => 0
  | .badSync => 1
  | .badHeaderCrc => 2

/-- The tag of an event (R201). -/
def FramerEvent.tag : FramerEvent → Nat
  | .packet _ => 0
  | .report _ => 1

/-- The code of a fault cause (R201). -/
def FaultCause.code : FaultCause → Nat
  | .invalidArgument => 1

/-- The status code of a response (R201). -/
def Response.status : Response → Nat
  | .ok _ => 0
  | .fault _ => 1

end Sys2Proof.Machine
end

