-- ==== Sys2Proof/Machine/Header.lean ====
section
/-! DEFINITION. The header model (spec 41_header.md; layout in 30_encoding.md R61 to R63). -/

namespace Sys2Proof.Machine

/-- `HdrValidate(h)`: sync first, then the header CRC over offsets 1 to 4 (R111, R62). -/
def hdrValidate (h : List Byte) : HdrVerdict :=
  if byteAt h Config.offSync ≠ Config.sync then .badSync
  else if crc8 (slice h Config.offDlHi Config.offHcrc) ≠ byteAt h Config.offHcrc then .badHeaderCrc
  else .ok

/-- The fields of a header (R63, R113). -/
structure HdrFields where
  dl : BitVec 16
  ol : Byte
  type : Byte
  hcrc : Byte
  deriving DecidableEq, Repr

/-- `HdrFields(h)` (R113): the data length is big-endian. -/
def hdrFields (h : List Byte) : HdrFields where
  dl := be16 (byteAt h Config.offDlHi) (byteAt h Config.offDlLo)
  ol := byteAt h Config.offOl
  type := byteAt h Config.offType
  hcrc := byteAt h Config.offHcrc

/-- `N = DL + OL`, computed without truncation (R63). -/
def HdrFields.n (f : HdrFields) : Nat := f.dl.toNat + f.ol.toNat

/-- The four bytes the header CRC covers, in frame order (R62). -/
def hdrCovered (type : Byte) (dl : BitVec 16) (ol : Byte) : List Byte := [hiByte dl, loByte dl, ol, type]

/-- `HdrBuild(type, DL, OL)` (R114). -/
def hdrBuild (type : Byte) (dl : BitVec 16) (ol : Byte) : List Byte :=
  [Config.sync] ++ hdrCovered type dl ol ++ [crc8 (hdrCovered type dl ol)]

/-- `HDR.VALIDATE h`: `HdrValidate` of the 6 bytes on the port (R112). -/
def execHdrValidate (h : BitVec 48) (s : State) : Host.Outcome State Fault Refusal :=
  respond (.header (hdrValidate (hdrBytes h))) s

end Sys2Proof.Machine
end

