-- ==== Sys2Proof/Machine/Framer.lean ====
section
/-! DEFINITION. The packet framer (spec 42_framer.md). -/

namespace Sys2Proof.Machine

/-! ## The arms of the state machine (R121 to R125) -/

/-- What an arm does (R121): stop, leaving `st` and `q`; or continue with new `st` and `q`, having appended
events. -/
inductive ArmResult where
  | stop
  | go (f : Framer) (events : List FramerEvent)
  deriving DecidableEq, Repr

/-- The Packet at the front of a byte sequence that holds its whole frame (R125, R64, R66). -/
def packetAt (q : List Byte) : Packet where
  sync := byteAt q Config.offSync
  dataLength := (hdrFields q).dl
  optLength := (hdrFields q).ol
  type := (hdrFields q).type
  headerCrc := (hdrFields q).hcrc
  data := slice q Config.hdrSize (Config.hdrSize + (hdrFields q).dl.toNat)
  optData := slice q (Config.hdrSize + (hdrFields q).dl.toNat) (Config.hdrSize + (hdrFields q).n)
  payloadCrc := byteAt q (Config.hdrSize + (hdrFields q).n)

/-- The payload CRC of the frame at the front of a byte sequence matches its trailing byte (R64, R125). -/
def payloadOk (q : List Byte) : Bool :=
  crc8 (slice q Config.hdrSize (Config.hdrSize + (hdrFields q).n)) ==
    byteAt q (Config.hdrSize + (hdrFields q).n)

/-- The length `7 + N` of the frame whose header stands at the front of a byte sequence (R63). -/
def frameLength (q : List Byte) : Nat := Config.hdrSize + (hdrFields q).n + 1

/-- How many bytes leave the window after a payload-CRC failure: the sync candidate only (R125), or the whole
attempt under the policy that is not adopted (R137). -/
def resumeDrop (pol : Config.ResumePolicy) (q : List Byte) : Nat :=
  match pol with
  | .syncPlus1 => 1
  | .skipAttempt => frameLength q

/-- Arm `SeekingSync` (R122): discard bytes, silently, until the sync byte is observed. -/
def armSeekingSync (q : List Byte) : ArmResult :=
  match q with
  | [] => .stop
  | b :: _ =>
    if b = Config.sync then .go { st := .readingHeader, q := q } []
    else .go { st := .seekingSync, q := qDrop q 1 } []

/-- Arm `ReadingHeader` (R123); its `BadSync` branch is the one no run reaches (R136). -/
def armReadingHeader (q : List Byte) : ArmResult :=
  if q.length < Config.hdrSize then .stop
  else
    match hdrValidate (slice q 0 Config.hdrSize) with
    | .ok => .go { st := .readingBody, q := q } []
    | .badHeaderCrc => .go { st := .seekingSync, q := qDrop q 1 } [.report .badHeaderCrc]
    | .badSync => .go { st := .seekingSync, q := qDrop q 1 } [.report .badSync]

/-- Arm `ReadingBody` (R124): wait for the `N + 1` body bytes. -/
def armReadingBody (q : List Byte) : ArmResult :=
  if q.length < frameLength q then .stop else .go { st := .emitting, q := q } []

/-- Arm `Emitting` (R125): emit the Packet, or report `BadPayloadCRC` and resume the scan (R137 for the policy). -/
def armEmitting (pol : Config.ResumePolicy) (q : List Byte) : ArmResult :=
  if payloadOk q then .go { st := .seekingSync, q := qDrop q (frameLength q) } [.packet (packetAt q)]
  else .go { st := .seekingSync, q := qDrop q (resumeDrop pol q) } [.report .badPayloadCrc]

/-- The arm of the current state (R121). -/
def framerArm (pol : Config.ResumePolicy) (f : Framer) : ArmResult :=
  match f.st with
  | .seekingSync => armSeekingSync f.q
  | .readingHeader => armReadingHeader f.q
  | .readingBody => armReadingBody f.q
  | .emitting => armEmitting pol f.q

/-! ## The run loop (R121) -/

/-- The loop with a bound on its rounds. -/
def framerLoop (pol : Config.ResumePolicy) : Nat → Framer → Framer × List FramerEvent
  | 0, f => (f, [])
  | n + 1, f =>
    match framerArm pol f with
    | .stop => (f, [])
    | .go g es =>
      let r := framerLoop pol n g
      (r.1, es ++ r.2)

/-- Rounds enough for the loop to stop by itself (R132): every byte of the window costs at most four. -/
def framerFuel (f : Framer) : Nat := 4 * f.q.length + 2

/-- `FramerRun()` (R121): repeat the arms until one says stop. -/
def framerRun (pol : Config.ResumePolicy) (f : Framer) : Framer × List FramerEvent :=
  framerLoop pol (framerFuel f) f

/-! ## Bytes in, events out (R126, R127) -/

/-- One byte enters at the back of the window and the loop runs (R126). -/
def framerPush (pol : Config.ResumePolicy) (f : Framer) (b : Byte) : Framer × List FramerEvent :=
  framerRun pol { f with q := qAppend f.q b }

/-- One push per byte, left to right, their events joined (R127). -/
def framerFeed (pol : Config.ResumePolicy) : Framer → List Byte → Framer × List FramerEvent
  | f, [] => (f, [])
  | f, b :: bs =>
    let r := framerPush pol f b
    let r' := framerFeed pol r.1 bs
    (r'.1, r.2 ++ r'.2)

/-- The Packets of an event list, in order (R127, R129). -/
def packetsOf (es : List FramerEvent) : List Packet :=
  es.filterMap fun e => match e with
    | .packet p => some p
    | .report _ => none

/-- The reports of an event list, in order (R127, R129). -/
def reportsOf (es : List FramerEvent) : List ReportKind :=
  es.filterMap fun e => match e with
    | .packet _ => none
    | .report k => some k

/-! ## The operations -/

/-- The event list and the status outputs of a framer response (R28): the response fields of `FRM.PUSH` (R126). -/
def pushResult (f : Framer) (es : List FramerEvent) : PushResult where
  events := es
  pending := f.pending
  needMore := f.needMore

/-- The response fields of `FRM.FEED` (R127): every offered byte is consumed (conflict C3). -/
def feedResult (n : Nat) (f : Framer) (es : List FramerEvent) : FeedResult where
  packets := packetsOf es
  reports := reportsOf es
  allEvents := es
  bytesConsumed := n
  pending := f.pending
  needMore := f.needMore

/-- `FRM.PUSH b` on the selected framer instance (R126). -/
def execFrmPush (b : Byte) (s : State) : Host.Outcome State Fault Refusal :=
  let r := framerPush Config.payloadFailResume (s.framer s.sel) b
  respond (.push (pushResult r.1 r.2)) (s.setFramer s.sel r.1)

/-- `FRM.FEED bytes` on the selected framer instance (R127). -/
def execFrmFeed (bytes : List Byte) (s : State) : Host.Outcome State Fault Refusal :=
  let r := framerFeed Config.payloadFailResume (s.framer s.sel) bytes
  respond (.feed (feedResult bytes.length r.1 r.2)) (s.setFramer s.sel r.1)

/-- `FRM.CLEAR` on the selected framer instance: back to its reset values (R128).  It has no
result; its response carries no event and the status outputs every framer response returns (R28). -/
def execFrmClear (s : State) : Host.Outcome State Fault Refusal :=
  respond (.cleared (pushResult Framer.reset [])) (s.resetFramer s.sel)

end Sys2Proof.Machine
end

