-- ==== Sys2Proof/Machine/Encoder.lean ====
section
/-! DEFINITION. The packet encoder and the pseudo-operation `decode` (spec 43_encoder.md). -/

namespace Sys2Proof.Machine

/-- The bytes `PKT.ENCODE` returns (R150): header, data, optional data, payload CRC. -/
def pktEncode (type : Byte) (data optData : List Byte) : List Byte :=
  hdrBuild type (BitVec.ofNat 16 data.length) (BitVec.ofNat 8 optData.length) ++ data ++ optData ++
    [crc8 (data ++ optData)]

/-- The Packet that a triple `(type, data, optData)` determines (R66). -/
def packetOf (type : Byte) (data optData : List Byte) : Packet where
  sync := Config.sync
  dataLength := BitVec.ofNat 16 data.length
  optLength := BitVec.ofNat 8 optData.length
  type := type
  headerCrc := crc8 (hdrCovered type (BitVec.ofNat 16 data.length) (BitVec.ofNat 8 optData.length))
  data := data
  optData := optData
  payloadCrc := crc8 (data ++ optData)

/-- A well-formed frame (R65): its sync byte, its header CRC, its length `7 + N` and its payload CRC are right. -/
def frameWellFormed (f : List Byte) : Bool :=
  decide (Config.hdrSize ≤ f.length) && (hdrValidate (slice f 0 Config.hdrSize) == .ok) &&
    decide (f.length = frameLength f) && payloadOk f

/-- The pseudo-operation `decode(bytes)`: `FRM.FEED bytes` on a scratch framer at reset (R153); it touches no
instance. -/
def pktDecode (pol : Config.ResumePolicy) (bytes : List Byte) : List Packet :=
  packetsOf (framerFeed pol Framer.reset bytes).2

/-- `PKT.ENCODE type, data, optData` (R150). -/
def execPktEncode (ty : Byte) (data optData : List Byte) (s : State) : Host.Outcome State Fault Refusal :=
  respond (.frame (pktEncode ty data optData)) s

end Sys2Proof.Machine
end

