-- ==== Sys2Proof/Machine/Dispatch.lean ====
section
/-! DEFINITION. One arm per operation of the map (spec 30_encoding.md R71). -/

namespace Sys2Proof.Machine

/-- What an instruction does: each arm calls the meaning of its operation. -/
def exec (i : Instr) (s : State) : Host.Outcome State Fault Refusal :=
  match i with
  | .crc8GenTable => Sys2Proof.Machine.execCrc8GenTable s
  | .crc8Calc buf => Sys2Proof.Machine.execCrc8Calc buf s
  | .crc8CalcR buf offset length => Sys2Proof.Machine.execCrc8CalcR buf offset length s
  | .hdrValidate h => Sys2Proof.Machine.execHdrValidate h s
  | .frmPush b => Sys2Proof.Machine.execFrmPush b s
  | .frmFeed bytes => Sys2Proof.Machine.execFrmFeed bytes s
  | .frmClear => Sys2Proof.Machine.execFrmClear s
  | .pktEncode ty data optData => Sys2Proof.Machine.execPktEncode ty data optData s
  | .adrEncH c => Sys2Proof.Machine.execAdrEncH c s
  | .adrDecH n => Sys2Proof.Machine.execAdrDecH n s
  | .adrEncD d => Sys2Proof.Machine.execAdrEncD d s
  | .adrDecD n => Sys2Proof.Machine.execAdrDecD n s
  | .evtNew source hi lo => Sys2Proof.Machine.execEvtNew source hi lo s
  | .aevNew source c d => Sys2Proof.Machine.execAevNew source c d s
  | .aevHouse e => Sys2Proof.Machine.execAevHouse e s
  | .aevDevice e => Sys2Proof.Machine.execAevDevice e s
  | .evtByte e => Sys2Proof.Machine.execEvtByte e s
  | .aevShow e => Sys2Proof.Machine.execAevShow e s

end Sys2Proof.Machine
end

