-- ==== Sys2Proof/Machine/Step.lean ====
section
/-! DEFINITION. One step of the machine: one operation (spec 00_scope.md R9, 20_memory.md R47). -/

namespace Sys2Proof.Machine

/-- One step: take the next operation issued and perform it to completion.  With none issued the machine is idle
(R206).  Two operations in flight on one framer instance have no meaning (R48).  An operation code outside the map
ends with the fault response `InvalidArgument` (R72). -/
def step (s : State) : Host.Outcome State Fault Refusal :=
  match fetch s with
  | .idle s' => .next s'
  | .clash => .refused .concurrentFramerUse
  | .request c s' =>
    match decode c with
    | .ok i => exec i s'
    | .error (.illegalOp _) => raiseInvalidArgument s'
    | .error .operandNotPresentable => .refused .operandNotPresentable

/-- `s` with the operation code `w` (8 bits) and zero operands issued to the selected framer instance, ahead of
everything else in the inbox, so that the next step performs it (assumption 4). -/
def State.withFetchWord (s : State) (_nbits w : Nat) : State :=
  { s with inbox := [{ caller := s.caller, framer := s.sel, cmd := tableCommand w }] :: s.inbox }

end Sys2Proof.Machine
end

