-- ==== Sys2Proof/Machine/Scan.lean ====
section
/-! DEFINITION. The stream function `Scan` (spec 42_framer.md R133), the other definition the spec gives of the
framer. -/

namespace Sys2Proof.Machine

/-- The position at which scanning resumes after a payload-CRC failure at position `p` of a frame claiming `n`
payload bytes: `p + 1` (R133), or `p + 7 + n` under the policy that is not adopted (R137). -/
def scanResume (pol : Config.ResumePolicy) (p n : Nat) : Nat :=
  match pol with
  | .syncPlus1 => p + 1
  | .skipAttempt => p + 7 + n

/-- `Scan(p)` over the whole receive stream `S` (R133) with a bound on its rounds: the events in order, and the
position at which it stops. -/
def scanFrom (pol : Config.ResumePolicy) (S : List Byte) : Nat → Nat → List FramerEvent × Nat
  | 0, p => ([], p)
  | n + 1, p =>
    if p ≥ S.length then ([], p)
    else if byteAt S p ≠ Config.sync then scanFrom pol S n (p + 1)
    else if p + 6 > S.length then ([], p)
    else if crc8 (slice S (p + 1) (p + 5)) ≠ byteAt S (p + 5) then
      let r := scanFrom pol S n (p + 1)
      (.report .badHeaderCrc :: r.1, r.2)
    else
      let N := (be16 (byteAt S (p + 1)) (byteAt S (p + 2))).toNat + (byteAt S (p + 3)).toNat
      if p + 7 + N > S.length then ([], p)
      else if crc8 (slice S (p + 6) (p + 6 + N)) = byteAt S (p + 6 + N) then
        let r := scanFrom pol S n (p + 7 + N)
        (.packet (packetAt (slice S p (p + 7 + N))) :: r.1, r.2)
      else
        let r := scanFrom pol S n (scanResume pol p N)
        (.report .badPayloadCrc :: r.1, r.2)

/-- `Scan(0)` over the stream `S`: every round moves at least one byte on, so `|S| + 1` rounds are enough. -/
def scan (pol : Config.ResumePolicy) (S : List Byte) : List FramerEvent × Nat := scanFrom pol S (S.length + 1) 0

/-- The framer state R133 gives for a scan of `S` that stopped at position `p`. -/
def scanFramer (S : List Byte) (p : Nat) : Framer where
  st := if p = S.length then .seekingSync else if S.length - p < 6 then .readingHeader else .readingBody
  q := S.drop p

end Sys2Proof.Machine
end

