-- ==== Sys2Proof/Safety.lean ====
section
/-! DEFINITION. What a good state is and what a safe step is (spec 10_state.md R24, 30_encoding.md R66,
60_exceptions.md R191). -/

namespace Sys2Proof.Machine

/-- The invariants (I-a) to (I-e) that hold of a framer between operations (R24). -/
abbrev Framer.Quiescent (f : Framer) : Prop :=
  (f.st = .seekingSync ↔ f.q.length = 0) ∧
  (f.st = .readingHeader → 1 ≤ f.q.length ∧ f.q.length ≤ 5 ∧ byteAt f.q 0 = Config.sync) ∧
  (f.st = .readingBody → byteAt f.q 0 = Config.sync ∧ hdrValidate (slice f.q 0 6) = .ok ∧
    6 ≤ f.q.length ∧
    f.q.length ≤ 6 + ((be16 (byteAt f.q 1) (byteAt f.q 2)).toNat + (byteAt f.q 3).toNat)) ∧
  f.st ≠ .emitting ∧
  f.q.length ≤ Config.maxFrame - 1

/-- The machine's invariant: the framer instances are listed in canonical form, and each is quiescent. -/
abbrev State.Inv (s : State) : Prop := Bank.wf s.framers ∧ ∀ x ∈ s.framers, x.2.Quiescent

/-- The invariants of a Packet (R66). -/
abbrev Packet.Valid (p : Packet) : Prop :=
  p.sync = Config.sync ∧
  p.data.length = p.dataLength.toNat ∧
  p.optData.length = p.optLength.toNat ∧
  p.headerCrc = crc8 [hiByte p.dataLength, loByte p.dataLength, p.optLength, p.type] ∧
  p.payloadCrc = crc8 (p.data ++ p.optData)

/-- The complete list of the causes of the fault `InvalidArgument` in an operation of the map (R191, causes 1 to
8). -/
abbrev invalidArgumentCause : Instr → Prop
  | .crc8Calc buf => buf = none
  | .crc8CalcR none _ _ => True
  | .crc8CalcR (some bs) offset length =>
    offset.toInt < 0 ∨ length.toInt < 0 ∨ offset.toInt + length.toInt > (bs.length : Int)
  | .adrEncH c => ¬ (0x41 ≤ c.toNat ∧ c.toNat ≤ 0x50) ∧ ¬ (0x61 ≤ c.toNat ∧ c.toNat ≤ 0x70)
  | .adrEncD d => ¬ (1 ≤ d.toInt ∧ d.toInt ≤ 16)
  | .aevNew _ c d =>
    (¬ (0x41 ≤ c.toNat ∧ c.toNat ≤ 0x50) ∧ ¬ (0x61 ≤ c.toNat ∧ c.toNat ≤ 0x70)) ∨
      ¬ (1 ≤ d.toInt ∧ d.toInt ≤ 16)
  | .crc8GenTable => False
  | .hdrValidate _ => False
  | .frmPush _ => False
  | .frmFeed _ => False
  | .frmClear => False
  | .pktEncode _ _ _ => False
  | .adrDecH _ => False
  | .adrDecD _ => False
  | .evtNew _ _ _ => False
  | .aevHouse _ => False
  | .aevDevice _ => False
  | .evtByte _ => False
  | .aevShow _ => False

/-- The CRC8 of a byte sequence as the rules give it, with no table: the fold, from the seed 0, of the polynomial's
derivation (R94 over R90 and R91). -/
def crcByRule (s : List Byte) : Byte := s.foldl (fun c b => crcDerive (c ^^^ b)) 0x00

/-- The loop of R121 as a relation, with no bound on its rounds: `FramerRuns pol f es f'` says that, starting from
`f`, the arms are repeated until one says stop, at `f'`, having appended the events `es`. -/
inductive FramerRuns (pol : Config.ResumePolicy) : Framer → List FramerEvent → Framer → Prop where
  | stop (f : Framer) : framerArm pol f = .stop → FramerRuns pol f [] f
  | go (f g f' : Framer) (es es' : List FramerEvent) :
      framerArm pol f = .go g es → FramerRuns pol g es' f' → FramerRuns pol f (es ++ es') f'

/-- A safe step: the machine goes on. -/
def safeStep (s : State) : Bool :=
  match step s with
  | .next _ => true
  | .fault _ => false
  | .refused _ => false

/-- A safe run of `n` steps. -/
def safeRun : Nat → State → Bool
  | 0, _ => true
  | n + 1, s =>
    match step s with
    | .next s' => safeRun n s'
    | .fault _ => false
    | .refused _ => false

end Sys2Proof.Machine
end

