-- ==== Sys2Proof/Certificates/Slice0/Obligations.lean ====
section
/-! DEFINITION. The statements for the provers, from the numbered rules of the spec. -/

open Sys2Proof Sys2Proof.Machine

/-! ## Commands: encoding and decoding (30_encoding.md section 4) -/

/-- Encode and decode agree over R71's map: a presentable instruction decodes back with every operand, one that is
not presentable is rejected as such, and a decoded instruction has the operation code of its command, is presentable,
and decodes from its own encoding.  The layout of the operand ports is
the model's (assumption 3).  That a decoder turns away an instruction whose operands no port can carry, of which R40
and R150 say only that it cannot be presented, is the model's (assumption 6). -/
def Obligations.DecodeOfEncode : Prop :=
  (∀ i : Instr, i.wellFormed = true → decode (encode i) = .ok i) ∧
  (∀ i : Instr, i.wellFormed = false → decode (encode i) = .error .operandNotPresentable) ∧
  (∀ (c : Command) (i : Instr), decode c = .ok i →
    (encode i).op = c.op ∧ i.wellFormed = true ∧ decode (encode i) = .ok i)

/-- A few operation codes of R71, written out bit by bit, with their operands on their ports (the
layout of the ports is assumption 3). -/
def Obligations.WrittenOutCommandsDecode : Prop :=
  decode { op := 0b00010000, ports := Ports.zero } = .ok .crc8GenTable ∧
  decode { op := 0b00010010, ports := { Ports.zero with buf := some [0x31, 0x32], offset := 1, length := 2 } } =
    .ok (.crc8CalcR (some [0x31, 0x32]) 1 2) ∧
  decode { op := 0b00100000, ports := { Ports.zero with hdr := 0x550001000570 } } =
    .ok (.hdrValidate 0x550001000570) ∧
  decode { op := 0b00110001, ports := { Ports.zero with bytes := [0x55, 0x00, 0x01] } } =
    .ok (.frmFeed [0x55, 0x00, 0x01]) ∧
  decode { op := 0b01000000, ports := { Ports.zero with ty := 5, data := [8], optData := [9] } } =
    .ok (.pktEncode 5 [8] [9]) ∧
  decode { op := 0b01010101, ports := { Ports.zero with source := 7, house := 0x41, device := 16 } } =
    .ok (.aevNew 7 0x41 16)

/-- Every operation code outside the map ends with the fault response `InvalidArgument` and changes no state of CORE:
every framer instance is as before (R72); the codes of the map are not illegal.  The other three fields the equation
fixes are the model's own (assumption 4): the request has left the inbox, and its caller and its framer instance are
the ones selected. -/
def Obligations.IllegalOperationCodeFaults : Prop :=
  ∀ (s : State) (r : Request) (rs : List Request) (rest : List (List Request)),
    s.inbox = (r :: rs) :: rest → groupClashes (r :: rs) = false →
    ((r.cmd.op.toNat ≤ 0x0F ∨ (0x13 ≤ r.cmd.op.toNat ∧ r.cmd.op.toNat ≤ 0x1F) ∨
        (0x21 ≤ r.cmd.op.toNat ∧ r.cmd.op.toNat ≤ 0x2F) ∨ (0x33 ≤ r.cmd.op.toNat ∧ r.cmd.op.toNat ≤ 0x3F) ∨
        (0x41 ≤ r.cmd.op.toNat ∧ r.cmd.op.toNat ≤ 0x4F) ∨ 0x5A ≤ r.cmd.op.toNat) →
      step s = .next { s with
        inbox := if rs = [] then rest else rs :: rest
        caller := r.caller
        sel := r.framer
        response := some (.fault .invalidArgument) }) ∧
    (r.cmd.op ∈ ([0x10, 0x11, 0x12, 0x20, 0x30, 0x31, 0x32, 0x40, 0x50, 0x51, 0x52, 0x53, 0x54, 0x55, 0x56, 0x57,
        0x58, 0x59] : List Byte) →
      ∀ op, decode r.cmd ≠ .error (.illegalOp op))

/-- An operand no port can carry (R40, R150) is the only other thing a step refuses a command for: a CRC buffer of
`2^31` bytes or more, or an encoder segment longer than its length port counts.  Rests on assumption 6. -/
def Obligations.UnpresentableOperandRefused : Prop :=
  ∀ (s : State) (r : Request) (rs : List Request) (rest : List (List Request)),
    s.inbox = (r :: rs) :: rest → groupClashes (r :: rs) = false →
    (step s = .refused .operandNotPresentable ↔
      ((r.cmd.op = 0x11 ∨ r.cmd.op = 0x12) ∧ ∃ bs, r.cmd.ports.buf = some bs ∧ 2147483648 ≤ bs.length) ∨
      (r.cmd.op = 0x40 ∧ (65535 < r.cmd.ports.data.length ∨ 255 < r.cmd.ports.optData.length)))

/-! ## Steps (20_memory.md section 6) -/

/-- A step performs the decoded instruction: when the next request decodes to `i`, the step is `exec i` in the state
in which that request has left the inbox and its in which that request has left the inbox and its caller and its framer instance are selected (assumption 4). -/
def Obligations.StepPerformsDecodedInstruction : Prop :=
  ∀ (s : State) (r : Request) (rs : List Request) (rest : List (List Request)) (i : Instr),
    s.inbox = (r :: rs) :: rest → groupClashes (r :: rs) = false → decode r.cmd = .ok i →
    step s = exec i { s with
      inbox := if rs = [] then rest else rs :: rest
      caller := r.caller
      sel := r.framer }

/-- The word placed for the next step is performed by it, and nothing else changes: the model's own interface
(assumptions 3 and 4). -/
def Obligations.FetchWordIsPerformed : Prop :=
  ∀ (s : State) (w : Nat) (i : Instr), decodeTableWord 8 w = some i → step (s.withFetchWord 8 w) = exec i s

/-- With no operation issued a step changes nothing and answers nobody (R206: a framer not given bytes keeps `st`
and `q`).  The shape of the inbox is the model's (assumption 4). -/
def Obligations.IdleStepKeepsEverything : Prop :=
  ∀ s : State,
    (s.inbox = [] → step s = .next { s with response := none }) ∧
    (∀ rest, s.inbox = [] :: rest → step s = .next { s with inbox := rest, response := none })

/-- R48: two framer operations on one framer instance in flight at the same time are refused, and nothing else is
refused for that reason.  That a group of the inbox is what is in flight at the same time is the model's
(assumption 4). -/
def Obligations.ConcurrentUseOfOneFramerRefused : Prop :=
  ∀ (s : State) (g : List Request) (rest : List (List Request)), s.inbox = g :: rest →
    (step s = .refused .concurrentFramerUse ↔
      ∃ (a b c : List Request) (r r' : Request), g = a ++ r :: b ++ r' :: c ∧ r.framer = r'.framer ∧
        r.cmd.op ∈ ([0x30, 0x31, 0x32] : List Byte) ∧ r'.cmd.op ∈ ([0x30, 0x31, 0x32] : List Byte))

/-! ## The CRC8 engine (40_crc8.md) -/

/-- The literal table of R92 is the one R91 derives from the polynomial, entry by entry, and a permutation.  Both
rules rest on the spec's own decision D5 and on general knowledge (assumption 8). -/
def Obligations.TableIsDerivedFromPolynomial : Prop :=
  tbl.length = 256 ∧ (∀ i : Byte, tbl[i.toNat]? = some (crcDerive i)) ∧ (∀ i : Byte, tblRead i = crcDerive i) ∧
  (∀ i j : Byte, tblRead i = tblRead j → i = j)

/-- R94: the CRC of a byte sequence is the left fold of the step from the seed 0: the empty sequence gives 0, and each
further byte is one step with the byte the polynomial gives. -/
def Obligations.CrcIsLeftFold : Prop :=
  crc8 [] = 0x00 ∧
  (∀ (s : List Byte) (b : Byte), crc8 (s ++ [b]) = crcDerive (crc8 s ^^^ b)) ∧
  (∀ s : List Byte, crc8 s = crcByRule s)

/-- R98: the five laws of the table and of the CRC: (a) the table is linear, (b) the CRC is linear, (c) the residue
is zero, (d) a single wrong bit changes the CRC, (e) leading zero bytes are invisible; and R94's law that a sequence
may be cut anywhere.  The spec marks both as its own inference. -/
def Obligations.CrcLaws : Prop :=
  ((∀ a b : Byte, tblRead (a ^^^ b) = tblRead a ^^^ tblRead b) ∧ tblRead 0x00 = 0x00) ∧
  (∀ s t : List Byte, s.length = t.length → crc8 (List.zipWith (· ^^^ ·) s t) = crc8 s ^^^ crc8 t) ∧
  ((∀ s : List Byte, crc8 (s ++ [crc8 s]) = 0x00) ∧
    (∀ (s : List Byte) (b : Byte), crc8 (s ++ [b]) = 0x00 → b = crc8 s)) ∧
  (∀ (s : List Byte) (i k : Nat), i < s.length → k < 8 → crc8 (s.set i (byteAt s i ^^^ (1#8 <<< k))) ≠ crc8 s) ∧
  (∀ s : List Byte, crc8 (0x00 :: s) = crc8 s) ∧
  (∀ s t : List Byte, crc8 (s ++ t) = crc8From (crc8 s) t)

/-- R93: `CRC8.GENTABLE` answers the 256 bytes the polynomial gives, in index order, from every state, and changes
nothing. -/
def Obligations.GenTableResult : Prop :=
  Instr.crc8GenTable.opcode = 0x10 ∧
  ∀ s : State, exec .crc8GenTable s =
    .next { s with response := some (.ok (.table ((List.range 256).map fun i => crcDerive (BitVec.ofNat 8 i)))) }

/-- R95: `CRC8.CALC` faults on an absent buffer and answers the CRC of a present one; it is
`CRC8.CALCR` over the whole buffer.  (Its corner on leading zero bytes is the spec's own inference: `CrcLaws`.) -/
def Obligations.CalcResult : Prop :=
  ∀ s : State,
    (∀ buf, (Instr.crc8Calc buf).opcode = 0x11) ∧
    exec (.crc8Calc none) s = .next { s with response := some (.fault .invalidArgument) } ∧
    (∀ bs : List Byte, exec (.crc8Calc (some bs)) s =
      .next { s with response := some (.ok (.byte (crcByRule bs))) }) ∧
    (∀ bs : List Byte, bs.length < 2147483648 →
      exec (.crc8Calc (some bs)) s = exec (.crc8CalcR (some bs) 0 (BitVec.ofNat 32 bs.length)) s)

/-- R96: `CRC8.CALCR` answers the CRC of `buf[offset : offset + length]` when the buffer is present and the range
lies in it, over the mathematical integers, and faults otherwise. -/
def Obligations.CalcRangeResult : Prop :=
  ∀ (s : State) (offset length : SInt32),
    (∀ buf, (Instr.crc8CalcR buf offset length).opcode = 0x12) ∧
    exec (.crc8CalcR none offset length) s = .next { s with response := some (.fault .invalidArgument) } ∧
    (∀ bs : List Byte,
      (0 ≤ offset.toInt ∧ 0 ≤ length.toInt ∧ offset.toInt + length.toInt ≤ bs.length →
        exec (.crc8CalcR (some bs) offset length) s = .next { s with
          response := some (.ok (.byte (crcByRule ((bs.drop offset.toNat).take length.toNat)))) }) ∧
      (offset.toInt < 0 ∨ length.toInt < 0 ∨ offset.toInt + length.toInt > bs.length →
        exec (.crc8CalcR (some bs) offset length) s =
          .next { s with response := some (.fault .invalidArgument) }))

/-! ## The header model (41_header.md) -/

/-- R111, by `HDR.VALIDATE`: `BadSync` when byte 0 is not the sync byte, else `BadHeaderCRC` when the CRC of bytes 1
to 4 is not byte 5, else `Ok`; no header faults. -/
def Obligations.HeaderValidateResult : Prop :=
  ∀ (h : BitVec 48) (s : State),
    (Instr.hdrValidate h).opcode = 0x20 ∧
    exec (.hdrValidate h) s = .next { s with
      response := some (.ok (.header
        (if h.extractLsb' 40 8 ≠ 0x55 then .badSync
         else if crcByRule [h.extractLsb' 32 8, h.extractLsb' 24 8, h.extractLsb' 16 8, h.extractLsb' 8 8] ≠
              h.extractLsb' 0 8 then .badHeaderCrc
         else .ok))) }

/-- Each of the 48 single-bit flips of a valid header fails, the 8 in byte 0 with `BadSync` and the other 40 with
`BadHeaderCRC` (R112 (c), the spec's own inference). -/
def Obligations.HeaderBitFlipsFail : Prop :=
  ∀ (h : BitVec 48) (s : State) (k : Nat),
    exec (.hdrValidate h) s = .next { s with response := some (.ok (.header .ok)) } → k < 48 →
    exec (.hdrValidate (h ^^^ (1#48 <<< k))) s = .next { s with
      response := some (.ok (.header (if 40 ≤ k then .badSync else .badHeaderCrc))) }

/-- R114: the header the encoder builds has its bytes in frame order, big-endian length first, validates, and reads
back the same fields.  The spec marks the last two as its own inference. -/
def Obligations.BuiltHeaderValidates : Prop :=
  ∀ (type : Byte) (dl : BitVec 16) (ol : Byte),
    hdrBuild type dl ol = [0x55, dl.extractLsb' 8 8, dl.extractLsb' 0 8, ol, type,
      crcByRule [dl.extractLsb' 8 8, dl.extractLsb' 0 8, ol, type]] ∧
    hdrValidate (hdrBuild type dl ol) = .ok ∧
    (hdrFields (hdrBuild type dl ol)).dl = dl ∧
    (hdrFields (hdrBuild type dl ol)).ol = ol ∧
    (hdrFields (hdrBuild type dl ol)).type = type

/-! ## The framer (42_framer.md) -/

/-- R121 and R126 in every state: `FRM.PUSH` appends the byte to the window of the selected instance, repeats the
arms until one says stop, and answers the events in order with `pending` and `need_more`. -/
def Obligations.PushRunsTheArms : Prop :=
  ∀ (s : State) (b : Byte), (Instr.frmPush b).opcode = 0x30 ∧
    ∃ (f : Framer) (es : List FramerEvent),
      FramerRuns .syncPlus1 { st := (s.framer s.sel).st, q := (s.framer s.sel).q ++ [b] } es f ∧
      exec (.frmPush b) s = .next { s.setFramer s.sel f with
        response := some (.ok (.push { events := es, pending := f.q.length, needMore := decide (0 < f.q.length) })) }

/-- R122 between operations: with an empty window a byte that is not the sync byte is discarded silently, and the
sync byte becomes the candidate. -/
def Obligations.PushWhileSeekingSync : Prop :=
  ∀ (s : State) (b : Byte), s.Inv → (s.framer s.sel).q = [] →
    (b ≠ 0x55 → exec (.frmPush b) s = .next { s with
      response := some (.ok (.push { events := [], pending := 0, needMore := false })) }) ∧
    (b = 0x55 → exec (.frmPush b) s = .next { s.setFramer s.sel { st := .readingHeader, q := [0x55] } with
      response := some (.ok (.push { events := [], pending := 1, needMore := true })) })

/-- R123 between operations: the framer collects 6 header bytes; a valid header starts the body; a wrong header CRC is
reported once, only the candidate is dropped, and the five bytes after it are scanned again as if they arrived now. -/
def Obligations.PushWhileReadingHeader : Prop :=
  ∀ (s : State) (b : Byte) (q : List Byte), s.Inv → (s.framer s.sel).st = .readingHeader →
    (s.framer s.sel).q ++ [b] = q →
    (q.length < 6 → exec (.frmPush b) s = .next { s.setFramer s.sel { st := .readingHeader, q := q } with
      response := some (.ok (.push { events := [], pending := q.length, needMore := true })) }) ∧
    (q.length = 6 → crcByRule ((q.drop 1).take 4) = byteAt q 5 →
      exec (.frmPush b) s = .next { s.setFramer s.sel { st := .readingBody, q := q } with
        response := some (.ok (.push { events := [], pending := 6, needMore := true })) }) ∧
    (q.length = 6 → crcByRule ((q.drop 1).take 4) ≠ byteAt q 5 →
      ∃ (f : Framer) (es : List FramerEvent), framerFeed .syncPlus1 Framer.reset (q.drop 1) = (f, es) ∧
        exec (.frmPush b) s = .next { s.setFramer s.sel f with
          response := some (.ok (.push {
            events := .report .badHeaderCrc :: es
            pending := f.q.length
            needMore := decide (0 < f.q.length) })) })

/-- R124 and R125 between operations: the framer collects `N + 1` body bytes; when the payload CRC matches it emits
the Packet and its window is empty; when it does not, `BadPayloadCRC` is reported, only the candidate is dropped, and
all the bytes after it are scanned again as if they arrived now (conflict C2). -/
def Obligations.PushWhileReadingBody : Prop :=
  ∀ (s : State) (b : Byte) (q : List Byte) (dl ol : Nat), s.Inv → (s.framer s.sel).st = .readingBody →
    (s.framer s.sel).q ++ [b] = q → dl = 256 * (byteAt q 1).toNat + (byteAt q 2).toNat → ol = (byteAt q 3).toNat →
    (q.length < 7 + (dl + ol) → exec (.frmPush b) s = .next { s.setFramer s.sel { st := .readingBody, q := q } with
      response := some (.ok (.push { events := [], pending := q.length, needMore := true })) }) ∧
    (q.length = 7 + (dl + ol) → crcByRule ((q.drop 6).take (dl + ol)) = b →
      exec (.frmPush b) s = .next { s.setFramer s.sel Framer.reset with
        response := some (.ok (.push {
          events := [.packet {
            sync := 0x55
            dataLength := BitVec.ofNat 16 dl
            optLength := BitVec.ofNat 8 ol
            type := byteAt q 4
            headerCrc := byteAt q 5
            data := (q.drop 6).take dl
            optData := (q.drop (6 + dl)).take ol
            payloadCrc := b }]
          pending := 0
          needMore := false })) }) ∧
    (q.length = 7 + (dl + ol) → crcByRule ((q.drop 6).take (dl + ol)) ≠ b →
      ∃ (f : Framer) (es : List FramerEvent), framerFeed .syncPlus1 Framer.reset (q.drop 1) = (f, es) ∧
        exec (.frmPush b) s = .next { s.setFramer s.sel f with
          response := some (.ok (.push {
            events := .report .badPayloadCrc :: es
            pending := f.q.length
            needMore := decide (0 < f.q.length) })) })

/-- R127: `FRM.FEED` is one `FRM.PUSH` per byte, left to right, its events joined in order; every byte is consumed;
feeding nothing changes nothing. -/
def Obligations.FeedIsOnePushPerByte : Prop :=
  ∀ s : State, s.Inv →
    (∀ bytes, (Instr.frmFeed bytes).opcode = 0x31) ∧
    exec (.frmFeed []) s = .next { s with
      response := some (.ok (.feed {
        packets := []
        reports := []
        allEvents := []
        bytesConsumed := 0
        pending := (s.framer s.sel).q.length
        needMore := decide (0 < (s.framer s.sel).q.length) })) } ∧
    (∀ (b : Byte) (bs : List Byte), ∃ (t u : State) (p : PushResult) (r : FeedResult),
      exec (.frmPush b) s = .next t ∧ t.response = some (.ok (.push p)) ∧
      exec (.frmFeed bs) t = .next u ∧ u.response = some (.ok (.feed r)) ∧
      exec (.frmFeed (b :: bs)) s = .next { u with
        response := some (.ok (.feed {
          packets := packetsOf p.events ++ r.packets
          reports := reportsOf p.events ++ r.reports
          allEvents := p.events ++ r.allEvents
          bytesConsumed := 1 + bs.length
          pending := r.pending
          needMore := r.needMore })) })

/-- R128: `FRM.CLEAR` sets the selected instance to `SeekingSync` with an empty window, without any event, whatever
it was doing, and changes nothing where it already is so; its response carries the status outputs of R28. -/
def Obligations.ClearResult : Prop :=
  Instr.frmClear.opcode = 0x32 ∧
  ∀ s : State, s.Inv →
    (∃ t, exec .frmClear s = .next t ∧ t.response = some (.ok (.cleared { events := [], pending := 0, needMore := false })) ∧
      t.framer s.sel = { st := .seekingSync, q := [] } ∧ (∀ k, k ≠ s.sel → t.framer k = s.framer k) ∧
      t.inbox = s.inbox ∧ t.caller = s.caller ∧ t.sel = s.sel) ∧
    ((s.framer s.sel).st = .seekingSync →
      exec .frmClear s = .next { s with response := some (.ok (.cleared { events := [], pending := 0, needMore := false })) })

/-- A reset of one framer in mid-stream has exactly the effect of `FRM.CLEAR` on it and none on anything else
(R220). -/
def Obligations.ResetOfOneFramerIsClear : Prop :=
  ∀ s : State, s.Inv →
    exec .frmClear s = .next { s.resetFramer s.sel with response := some (.ok (.cleared { events := [], pending := 0, needMore := false })) } ∧
    (s.resetFramer s.sel).framer s.sel = { st := .seekingSync, q := [] } ∧
    ∀ k, k ≠ s.sel → (s.resetFramer s.sel).framer k = s.framer k

/-- The frame of the framer operations, and R134: they always end in a normal response; every other framer instance
keeps `st` and every byte of its window; the inbox, the caller and the selection stay. -/
def Obligations.FramerOperationsFrame : Prop :=
  ∀ (s : State) (i : Instr), s.Inv → i.usesFramer = true →
    ∃ (t : State) (r : Result), exec i s = .next t ∧ t.response = some (.ok r) ∧
      t.inbox = s.inbox ∧ t.caller = s.caller ∧ t.sel = s.sel ∧
      ∀ k, k ≠ s.sel → t.framer k = s.framer k ∧ ∀ a, byteAt (t.framer k).q a = byteAt (s.framer k).q a

/-- Every framer response returns both status outputs, and they are those of the instance after the operation
(R28); between operations more bytes are needed exactly when the framer is not seeking sync (R24 I-a). -/
def Obligations.StatusOutputsMatchTheWindow : Prop :=
  ∀ (s t : State) (i : Instr), s.Inv → i.usesFramer = true → exec i s = .next t →
    ∃ (pending : Nat) (needMore : Bool),
      ((∃ events, t.response = some (.ok (.push ⟨events, pending, needMore⟩))) ∨
        (∃ packets reports events n,
          t.response = some (.ok (.feed ⟨packets, reports, events, n, pending, needMore⟩))) ∨
        t.response = some (.ok (.cleared ⟨[], pending, needMore⟩))) ∧
      pending = (t.framer s.sel).q.length ∧ needMore = decide (0 < pending) ∧
      (needMore = true ↔ (t.framer s.sel).st ≠ .seekingSync)

/-- R132: the loop always stops by itself, in every state and under both policies; from a quiescent framer one push
yields at most `|q|` events, and the window never exceeds `MAX_FRAME`.  The spec marks R132 as its own inference. -/
def Obligations.LoopStopsWithinBounds : Prop :=
  (∀ (pol : Config.ResumePolicy) (f : Framer), framerArm pol (framerRun pol f).1 = .stop) ∧
  (∀ (pol : Config.ResumePolicy) (f : Framer) (b : Byte), f.Quiescent →
    (framerPush pol f b).2.length ≤ (qAppend f.q b).length ∧
    (qAppend f.q b).length ≤ 65797 ∧ (framerPush pol f b).1.q.length ≤ 65796)

/-- R133: whatever the cutting of the receive stream into feeds (a push being a feed of one byte), the joined events
are those of `Scan(0)` over the whole stream, and the framer holds the rest of the stream from where the scan stopped,
in the state R133 gives; under both policies of R137.  The spec marks R133 as its own inference. -/
def Obligations.FramerEqualsScan : Prop :=
  ∀ (pol : Config.ResumePolicy) (chunks : List (List Byte)),
    chunks.foldl
        (fun (r : Framer × List FramerEvent) c => ((framerFeed pol r.1 c).1, r.2 ++ (framerFeed pol r.1 c).2))
        (Framer.reset, []) =
      (scanFramer chunks.flatten (scan pol chunks.flatten).2, (scan pol chunks.flatten).1)

/-- The machine meets the stream function: `FRM.FEED` of a whole stream to a framer at reset answers the events of
`Scan(0)` and leaves the framer where the scan stops (R133, the spec's own
inference). -/
def Obligations.FeedFromResetIsScan : Prop :=
  ∀ (s : State) (bytes : List Byte), s.framer s.sel = Framer.reset →
    exec (.frmFeed bytes) s = .next { s.setFramer s.sel (scanFramer bytes (scan .syncPlus1 bytes).2) with
      response := some (.ok (.feed {
        packets := packetsOf (scan .syncPlus1 bytes).1
        reports := reportsOf (scan .syncPlus1 bytes).1
        allEvents := (scan .syncPlus1 bytes).1
        bytesConsumed := bytes.length
        pending := bytes.length - (scan .syncPlus1 bytes).2
        needMore := decide ((scan .syncPlus1 bytes).2 < bytes.length) })) }

/-- The framer never reports `BadSync` (R136): its arm is not reached from any state that meets the invariant
(the spec's own inference). -/
def Obligations.BadSyncNeverReported : Prop :=
  ∀ (s t : State), s.Inv → step s = .next t →
    (∀ r, t.response = some (.ok (.push r)) → FramerEvent.report .badSync ∉ r.events) ∧
    (∀ r, t.response = some (.ok (.feed r)) →
      FramerEvent.report .badSync ∉ r.allEvents ∧ ReportKind.badSync ∉ r.reports)

/-- Every Packet the machine emits meets R66's invariants, and encoding its type, data and optional data is possible
and describes it whole (R130). -/
def Obligations.EmittedPacketsAreValid : Prop :=
  ∀ (s t : State) (p : Packet), s.Inv → step s = .next t →
    ((∃ r, t.response = some (.ok (.push r)) ∧ FramerEvent.packet p ∈ r.events) ∨
      (∃ r, t.response = some (.ok (.feed r)) ∧ p ∈ r.packets)) →
    p.Valid ∧ p.data.length ≤ 65535 ∧ p.optData.length ≤ 255 ∧ packetOf p.type p.data p.optData = p ∧
      frameWellFormed (pktEncode p.type p.data p.optData) = true

/-- Behind a valid header the framer holds every byte and reports nothing until `7 + N` bytes are there (R225,
R228). -/
def Obligations.WaitBehindValidHeader : Prop :=
  ∀ (s : State) (bs q : List Byte), s.Inv → (s.framer s.sel).st = .readingBody → (s.framer s.sel).q = q →
    q.length + bs.length < 7 + (256 * (byteAt q 1).toNat + (byteAt q 2).toNat + (byteAt q 3).toNat) →
    exec (.frmFeed bs) s = .next { s.setFramer s.sel { st := .readingBody, q := q ++ bs } with
      response := some (.ok (.feed {
        packets := []
        reports := []
        allEvents := []
        bytesConsumed := bs.length
        pending := q.length + bs.length
        needMore := true })) }

/-- The framer waits at a sync candidate for at most 65796 further bytes: by then it has emitted or reported
(R135). -/
def Obligations.CandidateDecidedWithinBound : Prop :=
  ∀ (s : State) (bs : List Byte), s.Inv → (s.framer s.sel).q ≠ [] → 65796 ≤ bs.length →
    ∃ (t : State) (r : FeedResult), exec (.frmFeed bs) s = .next t ∧ t.response = some (.ok (.feed r)) ∧
      r.allEvents ≠ []

/-- Noise without a sync byte, then a well-formed frame: exactly its Packet is emitted and nothing is left (R135,
R122, R152). -/
def Obligations.FrameAfterNoiseIsEmitted : Prop :=
  ∀ (s : State) (noise data optData : List Byte) (type : Byte), s.Inv → (s.framer s.sel).q = [] →
    (0x55 : Byte) ∉ noise → data.length ≤ 65535 → optData.length ≤ 255 →
    exec (.frmFeed (noise ++ pktEncode type data optData)) s = .next { s with
      response := some (.ok (.feed {
        packets := [packetOf type data optData]
        reports := []
        allEvents := [.packet (packetOf type data optData)]
        bytesConsumed := noise.length + (7 + data.length + optData.length)
        pending := 0
        needMore := false })) }

/-- The two payload-failure policies give the same scan of a stream in which no failed attempt's span holds a further
sync byte (R137, in a slightly narrower form). -/
def Obligations.PoliciesAgreeWithoutInnerSync : Prop :=
  ∀ S : List Byte,
    (∀ p N : Nat, p + 6 ≤ S.length → byteAt S p = 0x55 → crc8 (slice S (p + 1) (p + 5)) = byteAt S (p + 5) →
      N = (be16 (byteAt S (p + 1)) (byteAt S (p + 2))).toNat + (byteAt S (p + 3)).toNat →
      p + 7 + N ≤ S.length → crc8 (slice S (p + 6) (p + 6 + N)) ≠ byteAt S (p + 6 + N) →
      ∀ j, p < j → j < p + 7 + N → byteAt S j ≠ 0x55) →
    scan .syncPlus1 S = scan .skipAttempt S

/-! ## The encoder (43_encoder.md) -/

/-- R150: `PKT.ENCODE` answers the sync byte, the big-endian data length, the optional length, the type, the header
CRC, the data, the optional data and the payload CRC; `7 + DL + OL` bytes that are a well-formed frame; no state is
written. -/
def Obligations.EncodeResult : Prop :=
  ∀ (ty : Byte) (data optData frame : List Byte) (s : State), data.length ≤ 65535 → optData.length ≤ 255 →
    frame = [0x55, BitVec.ofNat 8 (data.length / 256), BitVec.ofNat 8 (data.length % 256),
        BitVec.ofNat 8 optData.length, ty,
        crcByRule [BitVec.ofNat 8 (data.length / 256), BitVec.ofNat 8 (data.length % 256),
          BitVec.ofNat 8 optData.length, ty]] ++ data ++ optData ++ [crcByRule (data ++ optData)] →
    (Instr.pktEncode ty data optData).opcode = 0x40 ∧
    exec (.pktEncode ty data optData) s = .next { s with response := some (.ok (.frame frame)) } ∧
    frame.length = 7 + data.length + optData.length ∧ frameWellFormed frame = true

/-- R152: (a) decoding an encoded packet gives that packet and leaves nothing pending, whatever sync bytes it holds;
(b) encoding a decoded well-formed frame gives the frame back.  The spec marks R152 as its own inference. -/
def Obligations.FrameRoundTrip : Prop :=
  (∀ (pol : Config.ResumePolicy) (type : Byte) (data optData : List Byte),
    data.length ≤ 65535 → optData.length ≤ 255 →
    pktDecode pol (pktEncode type data optData) = [packetOf type data optData] ∧
    framerFeed pol Framer.reset (pktEncode type data optData) =
      (Framer.reset, [.packet (packetOf type data optData)])) ∧
  (∀ (pol : Config.ResumePolicy) (f : List Byte), frameWellFormed f = true →
    ∃ p : Packet, pktDecode pol f = [p] ∧ framerFeed pol Framer.reset f = (Framer.reset, [.packet p]) ∧
      pktEncode p.type p.data p.optData = f)

/-! ## The address/event model (44_address.md) -/

/-- The map the machine answers from the 16 letters to the nibbles, in every state, is one to one and onto, and is
not the alphabetical map (R8, R68).  Its table is the one a free bijection gives, and the tables that bijections give
are all the admissible tables: none is shut out (assumption 1). -/
def Obligations.HouseTableIsAdmissible : Prop :=
  (∀ (s : State) (n : Nibble), ∃! k : Fin 16,
    exec (.adrEncH (BitVec.ofNat 8 (0x41 + k.val))) s = .next { s with response := some (.ok (.nibble n)) }) ∧
  (∀ s : State, ∃ k : Fin 16,
    exec (.adrEncH (BitVec.ofNat 8 (0x41 + k.val))) s ≠
      .next { s with response := some (.ok (.nibble (BitVec.ofFin k))) }) ∧
  Config.houseTable = Config.HouseTable.ofPerm Config.freeHousePerm ∧
  (∀ t : Config.HouseTable, ∃ p : Equiv.Perm (Fin 16), Config.HouseTable.ofPerm p = t)

/-- R161: `EVT.NEW` answers the Event of its three operands, for every nibble pair. -/
def Obligations.EventNewResult : Prop :=
  ∀ (source : Source) (hi lo : Nibble) (s : State),
    (Instr.evtNew source hi lo).opcode = 0x54 ∧
    exec (.evtNew source hi lo) s = .next { s with
      response := some (.ok (.event { source := source, highNibble := hi, lowNibble := lo })) }

/-- R162: `EVT.BYTE` answers the byte with the high nibble in bits 7:4 and the low nibble in bits 3:0; different
nibble pairs give different bytes. -/
def Obligations.EventByteResult : Prop :=
  ∀ (e : Event) (s : State), (Instr.evtByte e).opcode = 0x58 ∧
    ∃ b : Byte, exec (.evtByte e) s = .next { s with response := some (.ok (.byte b)) } ∧
      b.extractLsb' 4 4 = e.highNibble ∧ b.extractLsb' 0 4 = e.lowNibble ∧
      b.toNat = 16 * e.highNibble.toNat + e.lowNibble.toNat

/-- R167: `ADR.ENCH` answers the table's nibble for the k-th letter, upper or lower case, and faults on each of the
other 224 character codes. -/
def Obligations.HouseEncodeResult : Prop :=
  ∀ (c : Byte) (s : State), (Instr.adrEncH c).opcode = 0x50 ∧
    (∀ k : Fin 16, c.toNat = 0x41 + k.val ∨ c.toNat = 0x61 + k.val →
      exec (.adrEncH c) s = .next { s with
        response := some (.ok (.nibble (BitVec.ofFin (Config.houseTable.perm k)))) }) ∧
    (¬ (0x41 ≤ c.toNat ∧ c.toNat ≤ 0x50) ∧ ¬ (0x61 ≤ c.toNat ∧ c.toNat ≤ 0x70) →
      exec (.adrEncH c) s = .next { s with response := some (.fault .invalidArgument) })

/-- R168: `ADR.DECH` answers the upper-case letter whose table entry is the nibble, for every nibble. -/
def Obligations.HouseDecodeResult : Prop :=
  ∀ (n : Nibble) (s : State), (Instr.adrDecH n).opcode = 0x51 ∧
    ∃ k : Fin 16, BitVec.ofFin (Config.houseTable.perm k) = n ∧
      exec (.adrDecH n) s = .next { s with response := some (.ok (.char (BitVec.ofNat 8 (0x41 + k.val)))) }

/-- R169: `ADR.ENCD` answers `d - 1` for `1 <= d <= 16`, a signed comparison, and faults for every other `d`. -/
def Obligations.DeviceEncodeResult : Prop :=
  ∀ (d : SInt32) (s : State), (Instr.adrEncD d).opcode = 0x52 ∧
    (1 ≤ d.toInt ∧ d.toInt ≤ 16 → ∃ n : Nibble, (n.toNat : Int) = d.toInt - 1 ∧
      exec (.adrEncD d) s = .next { s with response := some (.ok (.nibble n)) }) ∧
    (d.toInt ≤ 0 ∨ 17 ≤ d.toInt →
      exec (.adrEncD d) s = .next { s with response := some (.fault .invalidArgument) })

/-- R170: `ADR.DECD` answers `n + 1`, an integer 1..16, for every nibble. -/
def Obligations.DeviceDecodeResult : Prop :=
  ∀ (n : Nibble) (s : State), (Instr.adrDecD n).opcode = 0x53 ∧
    exec (.adrDecD n) s = .next { s with response := some (.ok (.device (n.toNat + 1))) } ∧
    1 ≤ n.toNat + 1 ∧ n.toNat + 1 ≤ 16

/-- R171: `AEV.NEW` answers the Event whose high nibble is the house code's and whose low nibble is `d - 1`, for the
16 letters in either case and the 16 device codes, and faults, with no Event, when either is invalid. -/
def Obligations.AddressEventNewResult : Prop :=
  ∀ (source : Source) (c : Byte) (d : SInt32) (s : State), (Instr.aevNew source c d).opcode = 0x55 ∧
    (∀ k : Fin 16, c.toNat = 0x41 + k.val ∨ c.toNat = 0x61 + k.val → 1 ≤ d.toInt → d.toInt ≤ 16 →
      ∃ n : Nibble, (n.toNat : Int) = d.toInt - 1 ∧
        exec (.aevNew source c d) s = .next { s with
          response := some (.ok (.event {
            source := source
            highNibble := BitVec.ofFin (Config.houseTable.perm k)
            lowNibble := n })) }) ∧
    ((¬ (0x41 ≤ c.toNat ∧ c.toNat ≤ 0x50) ∧ ¬ (0x61 ≤ c.toNat ∧ c.toNat ≤ 0x70)) ∨ d.toInt ≤ 0 ∨ 17 ≤ d.toInt →
      exec (.aevNew source c d) s = .next { s with response := some (.fault .invalidArgument) })

/-- R172, R173 and R174: `AEV.HOUSE`, `AEV.DEVICE` and `AEV.SHOW` decode every Event: the letter whose table entry is
the high nibble, the low nibble plus one, and both with the source. -/
def Obligations.AddressEventReadResults : Prop :=
  ∀ (e : Event) (s : State),
    (Instr.aevHouse e).opcode = 0x56 ∧ (Instr.aevDevice e).opcode = 0x57 ∧ (Instr.aevShow e).opcode = 0x59 ∧
    ∃ k : Fin 16, BitVec.ofFin (Config.houseTable.perm k) = e.highNibble ∧
      exec (.aevHouse e) s = .next { s with response := some (.ok (.char (BitVec.ofNat 8 (0x41 + k.val)))) } ∧
      exec (.aevDevice e) s = .next { s with response := some (.ok (.device (e.lowNibble.toNat + 1))) } ∧
      exec (.aevShow e) s = .next { s with
        response := some (.ok (.shown e.source (BitVec.ofNat 8 (0x41 + k.val)) (e.lowNibble.toNat + 1))) }

/-- R175: the address round trip both ways, and under every admissible table.  The spec marks the way back from a
nibble pair as its own inference. -/
def Obligations.AddressRoundTrip : Prop :=
  (∀ (s : State) (source : Source) (c : Byte) (d : SInt32) (k : Fin 16),
    c.toNat = 0x41 + k.val ∨ c.toNat = 0x61 + k.val → 1 ≤ d.toInt → d.toInt ≤ 16 →
    ∃ e : Event, exec (.aevNew source c d) s = .next { s with response := some (.ok (.event e)) } ∧
      exec (.aevHouse e) s = .next { s with response := some (.ok (.char (BitVec.ofNat 8 (0x41 + k.val)))) } ∧
      exec (.aevDevice e) s = .next { s with response := some (.ok (.device d.toNat)) }) ∧
  (∀ (s : State) (source : Source) (c : Byte) (d : SInt32),
    ((¬ (0x41 ≤ c.toNat ∧ c.toNat ≤ 0x50) ∧ ¬ (0x61 ≤ c.toNat ∧ c.toNat ≤ 0x70)) ∨ d.toInt < 1 ∨ 16 < d.toInt) →
    exec (.aevNew source c d) s = .next { s with response := some (.fault .invalidArgument) }) ∧
  (∀ (s : State) (source : Source) (hi lo : Nibble), ∃ (c : Byte) (d : Nat),
    exec (.aevHouse ⟨source, hi, lo⟩) s = .next { s with response := some (.ok (.char c)) } ∧
    exec (.aevDevice ⟨source, hi, lo⟩) s = .next { s with response := some (.ok (.device d)) } ∧
    exec (.aevNew source c (BitVec.ofNat 32 d)) s =
      .next { s with response := some (.ok (.event ⟨source, hi, lo⟩)) }) ∧
  (∀ (t : Config.HouseTable) (n : Nibble), houseEncWith t (houseDecWith t n) = some n) ∧
  (∀ (t : Config.HouseTable) (k : Fin 16) (c : Byte), c.toNat = 0x41 + k.val ∨ c.toNat = 0x61 + k.val →
    ∃ n, houseEncWith t c = some n ∧ houseDecWith t n = BitVec.ofNat 8 (0x41 + k.val))

/-! ## Faults, frames and independence (60_exceptions.md, 20_memory.md) -/

/-- R191: the complete list of the causes of `InvalidArgument`, at the level of a step: causes 1 to 8 in a decoded
operation, cause 9 an operation code outside the map; no other condition raises it.  How a request reaches the step
is the model's (assumption 4). -/
def Obligations.InvalidArgumentCausesComplete : Prop :=
  ∀ (s : State) (r : Request) (rs : List Request) (rest : List (List Request)),
    s.inbox = (r :: rs) :: rest → groupClashes (r :: rs) = false →
    ((∃ t, step s = .next t ∧ t.response = some (.fault .invalidArgument)) ↔
      ((∃ i, decode r.cmd = .ok i ∧ invalidArgumentCause i) ∨
        r.cmd.op ∉ ([0x10, 0x11, 0x12, 0x20, 0x30, 0x31, 0x32, 0x40, 0x50, 0x51, 0x52, 0x53, 0x54, 0x55, 0x56,
          0x57, 0x58, 0x59] : List Byte)))

/-- A fault is precise (R192): every framer instance is as before.  That the faulting request has left the inbox, that
its caller is the one answered and that the next operation is the one listed next is the model's way of saying
that the caller gets the response and the next operation runs (assumption 4). -/
def Obligations.FaultLeavesEverythingElse : Prop :=
  ∀ (s t : State), step s = .next t → t.response = some (.fault .invalidArgument) →
    t.framers = s.framers ∧
    ∃ (r : Request) (rs : List Request) (rest : List (List Request)), s.inbox = (r :: rs) :: rest ∧
      t.inbox = (if rs = [] then rest else rs :: rest) ∧ t.caller = r.caller ∧ t.sel = r.framer

/-- The frame of the operations that use no framer (R45): whatever they answer, every framer instance, the inbox, the
caller and the selection are as before. -/
def Obligations.PureOperationsFrame : Prop :=
  ∀ (s : State) (i : Instr), i.usesFramer = false → ∃ r : Response, exec i s = .next { s with response := some r }

/-- What an operation answers depends on its operands and on the selected framer instance alone, not on any other
part of the state (R47(c), R32): two states that agree there get the same answer and the same framer. -/
def Obligations.OperationsSeeOnlyTheirFramer : Prop :=
  (∀ (s t : State) (i : Instr), s.Inv → t.Inv → s.framer s.sel = t.framer t.sel →
    ∃ s' t' : State, exec i s = .next s' ∧ exec i t = .next t' ∧ s'.response = t'.response ∧
      s'.framer s.sel = t'.framer t.sel) ∧
  (∀ (s t : State) (i : Instr), i.usesFramer = false →
    ∃ s' t' : State, exec i s = .next s' ∧ exec i t = .next t' ∧ s'.response = t'.response)

/-- Operations on different framer instances commute (R47): in either order each gets the same answer and every
framer ends the same. -/
def Obligations.DifferentFramersCommute : Prop :=
  ∀ (s : State) (i j : Instr) (k l : Nat), s.Inv → k ≠ l →
    ∃ a b c d : State,
      exec i { s with sel := k } = .next a ∧ exec j { a with sel := l } = .next b ∧
      exec j { s with sel := l } = .next c ∧ exec i { c with sel := k } = .next d ∧
      b.framers = d.framers ∧ a.response = d.response ∧ b.response = c.response

/-! ## Reset and the invariant (10_state.md) -/

/-- R33: after reset every framer instance is `SeekingSync` with an empty window, so `pending = 0` and `need_more`
is false, and the table holds the constant.  The spec marks the framer's reset state as its own reading (D10). -/
def Obligations.ResetState : Prop :=
  (∀ k, (State.reset.framer k).st = .seekingSync ∧ (State.reset.framer k).q = [] ∧
    (State.reset.status k).pending = 0 ∧ (State.reset.status k).needMore = false) ∧
  (∀ i : Byte, tblRead i = crcDerive i)

/-- The invariant holds at reset (R24, R33). -/
def Obligations.InvariantAtReset : Prop := State.reset.Inv

/-- R24: the invariants (I-a) to (I-e) of every framer instance, and the canonical form in which the instances are
listed, are kept by every step, from every state that meets them.  The spec marks R24 as its own inference. -/
def Obligations.EveryStepKeepsInvariant : Prop :=
  ∀ s t : State, s.Inv → step s = .next t → t.Inv

/-- In a state that meets the invariant, (I-a) to (I-e) of R24 hold of every framer instance, listed or not, and its
window fits the largest frame less one byte. -/
def Obligations.InvariantHoldsOfEveryInstance : Prop :=
  ∀ (s : State) (k : Nat), s.Inv →
    ((s.framer k).st = .seekingSync ↔ (s.framer k).q = []) ∧
    ((s.framer k).st = .readingHeader →
      1 ≤ (s.framer k).q.length ∧ (s.framer k).q.length ≤ 5 ∧ byteAt (s.framer k).q 0 = 0x55) ∧
    ((s.framer k).st = .readingBody →
      byteAt (s.framer k).q 0 = 0x55 ∧ crcByRule (((s.framer k).q.drop 1).take 4) = byteAt (s.framer k).q 5 ∧
      6 ≤ (s.framer k).q.length ∧
      (s.framer k).q.length ≤ 6 + (256 * (byteAt (s.framer k).q 1).toNat + (byteAt (s.framer k).q 2).toNat +
        (byteAt (s.framer k).q 3).toNat)) ∧
    (s.framer k).st ≠ .emitting ∧ (s.framer k).q.length ≤ 65796

/-- The numeric codes of R201, the spec's own decision (D11). -/
def Obligations.NumericCodes : Prop :=
  (∀ r, (Response.ok r).status = 0) ∧ (∀ c, (Response.fault c).status = 1) ∧
  FaultCause.invalidArgument.code = 1 ∧
  HdrVerdict.ok.code = 0 ∧ HdrVerdict.badSync.code = 1 ∧ HdrVerdict.badHeaderCrc.code = 2 ∧
  ReportKind.badSync.code = 1 ∧ ReportKind.badHeaderCrc.code = 2 ∧ ReportKind.badPayloadCrc.code = 3 ∧
  FramerState.seekingSync.code = 0 ∧ FramerState.readingHeader.code = 1 ∧ FramerState.readingBody.code = 2 ∧
  FramerState.emitting.code = 3 ∧
  (∀ p, (FramerEvent.packet p).tag = 0) ∧ (∀ k, (FramerEvent.report k).tag = 1)
end

