-- ==== Sys2Proof/Laws/State.lean ====
section
/-! SUPPORT. One lemma per field per update of the state, all true by `rfl`. -/

namespace Sys2Proof.Machine

variable (s : State) (k : Nat) (f : Framer) (r : Response) (q : Request) (rest : List (List Request))

@[simp] theorem State.answer_framers : (s.answer r).framers = s.framers := rfl
@[simp] theorem State.answer_inbox : (s.answer r).inbox = s.inbox := rfl
@[simp] theorem State.answer_caller : (s.answer r).caller = s.caller := rfl
@[simp] theorem State.answer_sel : (s.answer r).sel = s.sel := rfl
@[simp] theorem State.answer_response : (s.answer r).response = some r := rfl

@[simp] theorem State.setFramer_framers : (s.setFramer k f).framers = Bank.set s.framers k f := rfl
@[simp] theorem State.setFramer_inbox : (s.setFramer k f).inbox = s.inbox := rfl
@[simp] theorem State.setFramer_caller : (s.setFramer k f).caller = s.caller := rfl
@[simp] theorem State.setFramer_sel : (s.setFramer k f).sel = s.sel := rfl
@[simp] theorem State.setFramer_response : (s.setFramer k f).response = s.response := rfl

@[simp] theorem State.accept_framers : (s.accept q rest).framers = s.framers := rfl
@[simp] theorem State.accept_inbox : (s.accept q rest).inbox = rest := rfl
@[simp] theorem State.accept_caller : (s.accept q rest).caller = q.caller := rfl
@[simp] theorem State.accept_sel : (s.accept q rest).sel = q.framer := rfl
@[simp] theorem State.accept_response : (s.accept q rest).response = s.response := rfl

@[simp] theorem State.idle_framers : (s.idle rest).framers = s.framers := rfl
@[simp] theorem State.idle_inbox : (s.idle rest).inbox = rest := rfl
@[simp] theorem State.idle_caller : (s.idle rest).caller = s.caller := rfl
@[simp] theorem State.idle_sel : (s.idle rest).sel = s.sel := rfl
@[simp] theorem State.idle_response : (s.idle rest).response = none := rfl

@[simp] theorem State.answer_framer : (s.answer r).framer k = s.framer k := rfl
@[simp] theorem State.accept_framer : (s.accept q rest).framer k = s.framer k := rfl
@[simp] theorem State.idle_framer : (s.idle rest).framer k = s.framer k := rfl

@[simp] theorem State.withFetchWord_framers (n w : Nat) : (s.withFetchWord n w).framers = s.framers := rfl
@[simp] theorem State.withFetchWord_response (n w : Nat) : (s.withFetchWord n w).response = s.response := rfl

@[simp] theorem Framer.reset_st : Framer.reset.st = .seekingSync := rfl
@[simp] theorem Framer.reset_q : Framer.reset.q = [] := rfl

end Sys2Proof.Machine
end

