-- ==== Sys2Proof/Laws/Bank.lean ====
section
/-! SUPPORT. The framer instances: read after write, other instances untouched, and the canonical form kept. -/

namespace Sys2Proof.Machine

@[simp] theorem Bank.get_nil (k : Nat) : Bank.get [] k = Framer.reset := rfl

theorem Bank.get_cons (j : Nat) (f : Framer) (rest : List (Nat × Framer)) (k : Nat) :
    Bank.get ((j, f) :: rest) k = if k = j then f else Bank.get rest k := rfl

/-- Below every listed number nothing is listed. -/
theorem Bank.get_of_lt {b : List (Nat × Framer)} {k : Nat} (h : ∀ x ∈ b, k < x.1) :
    Bank.get b k = Framer.reset := by
  induction b with
  | nil => rfl
  | cons x rest ih =>
    obtain ⟨j, f⟩ := x
    have hj : k < j := h (j, f) (by simp)
    rw [Bank.get_cons, if_neg (by omega)]
    exact ih fun y hy => h y (by simp [hy])

theorem Bank.wf_cons {j : Nat} {f : Framer} {rest : List (Nat × Framer)} :
    Bank.wf ((j, f) :: rest) ↔ (∀ x ∈ rest, j < x.1) ∧ f ≠ Framer.reset ∧ Bank.wf rest := by
  simp only [Bank.wf, List.pairwise_cons, List.mem_cons, forall_eq_or_imp]
  tauto

@[simp] theorem Bank.wf_nil : Bank.wf [] := by simp [Bank.wf]

theorem Bank.get_put (k : Nat) (f : Framer) (rest : List (Nat × Framer)) (j : Nat)
    (h : ∀ x ∈ rest, k < x.1) :
    Bank.get (Bank.put k f rest) j = if j = k then f else Bank.get rest j := by
  unfold Bank.put
  split
  · rename_i hf
    split
    · rename_i hj
      rw [hj, Bank.get_of_lt h, hf]
    · rfl
  · rfl

theorem Bank.wf_put {k : Nat} {f : Framer} {rest : List (Nat × Framer)} (hw : Bank.wf rest)
    (h : ∀ x ∈ rest, k < x.1) : Bank.wf (Bank.put k f rest) := by
  unfold Bank.put
  split
  · exact hw
  · rename_i hf
    exact Bank.wf_cons.2 ⟨h, hf, hw⟩

theorem Bank.mem_put {k : Nat} {f : Framer} {rest : List (Nat × Framer)} {x : Nat × Framer}
    (h : x ∈ Bank.put k f rest) : x = (k, f) ∨ x ∈ rest := by
  unfold Bank.put at h
  split at h
  · exact .inr h
  · exact List.mem_cons.1 h

/-- A listed instance of an updated bank is the one written or was listed before. -/
theorem Bank.mem_set {b : List (Nat × Framer)} {k : Nat} {f : Framer} {x : Nat × Framer}
    (h : x ∈ Bank.set b k f) : x = (k, f) ∨ x ∈ b := by
  induction b with
  | nil => exact Bank.mem_put h
  | cons y rest ih =>
    obtain ⟨j, g⟩ := y
    simp only [Bank.set] at h
    split at h
    · exact Bank.mem_put h
    · split at h
      · exact (Bank.mem_put h).imp_right (List.mem_cons_of_mem _)
      · rcases List.mem_cons.1 h with rfl | h
        · simp
        · exact (ih h).imp_right (List.mem_cons_of_mem _)

theorem Bank.wf_set {b : List (Nat × Framer)} (hw : Bank.wf b) (k : Nat) (f : Framer) :
    Bank.wf (Bank.set b k f) := by
  induction b with
  | nil => exact Bank.wf_put Bank.wf_nil (by simp)
  | cons y rest ih =>
    obtain ⟨j, g⟩ := y
    obtain ⟨hlt, hg, hrest⟩ := Bank.wf_cons.1 hw
    simp only [Bank.set]
    split
    · rename_i hk
      refine Bank.wf_put hw fun x hx => ?_
      rcases List.mem_cons.1 hx with rfl | hx
      · exact hk
      · exact lt_trans hk (hlt x hx)
    · split
      · rename_i hk
        exact Bank.wf_put hrest (by rw [hk]; exact hlt)
      · refine Bank.wf_cons.2 ⟨fun x hx => ?_, hg, ih hrest⟩
        rcases Bank.mem_set hx with rfl | hx
        · show j < k
          omega
        · exact hlt x hx

/-- Read after write, whichever instance is read. -/
theorem Bank.get_set {b : List (Nat × Framer)} (hw : Bank.wf b) (k : Nat) (f : Framer) (j : Nat) :
    Bank.get (Bank.set b k f) j = if j = k then f else Bank.get b j := by
  induction b with
  | nil => exact Bank.get_put k f [] j (by simp)
  | cons y rest ih =>
    obtain ⟨i, g⟩ := y
    obtain ⟨hlt, hg, hrest⟩ := Bank.wf_cons.1 hw
    simp only [Bank.set]
    split
    · rename_i hk
      refine Bank.get_put k f _ j fun x hx => ?_
      rcases List.mem_cons.1 hx with rfl | hx
      · exact hk
      · exact lt_trans hk (hlt x hx)
    · split
      · rename_i hk
        rw [Bank.get_put k f rest j (by rw [hk]; exact hlt), Bank.get_cons]
        split <;> simp_all
      · rw [Bank.get_cons, Bank.get_cons, ih hrest]
        split <;> split <;> simp_all

/-- Two canonical banks that read alike are equal. -/
theorem Bank.ext_get {b c : List (Nat × Framer)} (hb : Bank.wf b) (hc : Bank.wf c)
    (h : ∀ k, Bank.get b k = Bank.get c k) : b = c := by
  induction b generalizing c with
  | nil =>
    cases c with
    | nil => rfl
    | cons y rest =>
      obtain ⟨j, g⟩ := y
      have h' := h j
      rw [Bank.get_nil, Bank.get_cons, if_pos rfl] at h'
      exact absurd h'.symm (Bank.wf_cons.1 hc).2.1
  | cons x rest ih =>
    obtain ⟨i, f⟩ := x
    obtain ⟨hlt, hf, hrest⟩ := Bank.wf_cons.1 hb
    cases c with
    | nil =>
      have h' := h i
      rw [Bank.get_nil, Bank.get_cons, if_pos rfl] at h'
      exact absurd h' hf
    | cons y rest' =>
      obtain ⟨j, g⟩ := y
      obtain ⟨hlt', hg, hrest'⟩ := Bank.wf_cons.1 hc
      have hij : i = j := by
        rcases lt_trichotomy i j with hlt1 | rfl | hlt1
        · have h' := h i
          rw [Bank.get_cons, if_pos rfl, Bank.get_cons, if_neg (by omega),
            Bank.get_of_lt fun x hx => lt_trans hlt1 (hlt' x hx)] at h'
          exact absurd h' hf
        · rfl
        · have h' := h j
          rw [Bank.get_cons, if_neg (by omega), Bank.get_cons, if_pos rfl,
            Bank.get_of_lt fun x hx => lt_trans hlt1 (hlt x hx)] at h'
          exact absurd h'.symm hg
      subst hij
      have hfg : f = g := by simpa [Bank.get_cons] using h i
      subst hfg
      congr 1
      refine ih hrest hrest' fun k => ?_
      by_cases hk : k = i
      · rw [hk, Bank.get_of_lt hlt, Bank.get_of_lt hlt']
      · simpa [Bank.get_cons, hk] using h k

/-- Writing what an instance already is changes nothing. -/
theorem Bank.set_get {b : List (Nat × Framer)} (hw : Bank.wf b) (k : Nat) :
    Bank.set b k (Bank.get b k) = b := by
  refine Bank.ext_get (Bank.wf_set hw k _) hw fun j => ?_
  rw [Bank.get_set hw]
  split <;> simp_all

/-- The last of two writes to one instance counts. -/
theorem Bank.set_set {b : List (Nat × Framer)} (hw : Bank.wf b) (k : Nat) (f g : Framer) :
    Bank.set (Bank.set b k f) k g = Bank.set b k g := by
  refine Bank.ext_get (Bank.wf_set (Bank.wf_set hw k f) k g) (Bank.wf_set hw k g) fun j => ?_
  rw [Bank.get_set (Bank.wf_set hw k f), Bank.get_set hw, Bank.get_set hw]
  split <;> simp_all

/-- Writes to different instances commute. -/
theorem Bank.set_comm {b : List (Nat × Framer)} (hw : Bank.wf b) {k l : Nat} (h : k ≠ l) (f g : Framer) :
    Bank.set (Bank.set b k f) l g = Bank.set (Bank.set b l g) k f := by
  refine Bank.ext_get (Bank.wf_set (Bank.wf_set hw k f) l g) (Bank.wf_set (Bank.wf_set hw l g) k f)
    fun j => ?_
  rw [Bank.get_set (Bank.wf_set hw k f), Bank.get_set hw, Bank.get_set (Bank.wf_set hw l g), Bank.get_set hw]
  split <;> split <;> simp_all

/-- A listed instance of a canonical bank is what a read of its number gives. -/
theorem Bank.get_of_mem {b : List (Nat × Framer)} (hw : Bank.wf b) {x : Nat × Framer} (h : x ∈ b) :
    Bank.get b x.1 = x.2 := by
  induction b with
  | nil => simp at h
  | cons y rest ih =>
    obtain ⟨j, g⟩ := y
    obtain ⟨hlt, -, hrest⟩ := Bank.wf_cons.1 hw
    rw [Bank.get_cons]
    rcases List.mem_cons.1 h with rfl | hx
    · simp
    · rw [if_neg (by have := hlt x hx; omega), ih hrest hx]

/-- A read gives the reset framer or a listed one. -/
theorem Bank.get_mem (b : List (Nat × Framer)) (k : Nat) :
    Bank.get b k = Framer.reset ∨ (k, Bank.get b k) ∈ b := by
  induction b with
  | nil => exact .inl rfl
  | cons y rest ih =>
    obtain ⟨j, g⟩ := y
    rw [Bank.get_cons]
    split
    · rename_i h
      simp [h]
    · rcases ih with h | h
      · exact .inl h
      · exact .inr (by simp [h])

theorem State.framer_setFramer {s : State} (hw : Bank.wf s.framers) (k : Nat) (f : Framer) (j : Nat) :
    (s.setFramer k f).framer j = if j = k then f else s.framer j := Bank.get_set hw k f j

@[simp] theorem State.reset_framer (k : Nat) : State.reset.framer k = Framer.reset := rfl

end Sys2Proof.Machine
end

