-- ==== Sys2Proof/Laws/Bytes.lean ====
section
/-! SUPPORT. Byte sequences, the big-endian length, the table and the CRC fold. -/

namespace Sys2Proof.Machine

theorem slice_length (s : List Byte) (a b : Nat) : (slice s a b).length = min b s.length - a := by
  simp [slice]

theorem slice_zero_of_length_le {s : List Byte} {b : Nat} (h : s.length ≤ b) : slice s 0 b = s := by
  simp [slice, List.take_of_length_le h]

/-- A slice that ends inside the front of a sequence does not see what follows. -/
theorem slice_append_left (s t : List Byte) (a b : Nat) (h : b ≤ s.length) : slice (s ++ t) a b = slice s a b := by
  simp [slice, List.take_append_of_le_length h]

/-- A byte of the front of a sequence does not depend on what follows. -/
theorem byteAt_append_left (s t : List Byte) (i : Nat) (h : i < s.length) : byteAt (s ++ t) i = byteAt s i := by
  simp [byteAt, List.getElem?_append_left h]

@[simp] theorem byteAt_cons_zero (b : Byte) (s : List Byte) : byteAt (b :: s) 0 = b := rfl

@[simp] theorem byteAt_cons_succ (b : Byte) (s : List Byte) (i : Nat) : byteAt (b :: s) (i + 1) = byteAt s i := by
  simp [byteAt]

theorem byteAt_drop (s : List Byte) (p i : Nat) : byteAt (s.drop p) i = byteAt s (p + i) := by
  simp [byteAt]

theorem slice_drop (s : List Byte) (p a b : Nat) : slice (s.drop p) a b = slice s (p + a) (p + b) := by
  simp [slice, List.take_drop]

theorem be16_hiByte_loByte (v : BitVec 16) : be16 (hiByte v) (loByte v) = v := by
  apply BitVec.eq_of_getLsbD_eq
  intro i hi
  simp only [be16, hiByte, loByte, BitVec.truncate_eq_setWidth, BitVec.getLsbD_or, BitVec.getLsbD_shiftLeft,
    BitVec.getLsbD_setWidth, BitVec.getLsbD_extractLsb']
  by_cases h : i < 8
  · simp [h, show i < 16 by omega]
  · have e : 8 + (i - 8) = i := by omega
    simp [h, show i < 16 by omega, show i - 8 < 8 by omega, show i - 8 < 16 by omega, e]

theorem hiByte_be16 (hi lo : Byte) : hiByte (be16 hi lo) = hi := by
  apply BitVec.eq_of_getLsbD_eq
  intro i h
  simp [be16, hiByte, show 8 + i < 16 by omega, h]

theorem loByte_be16 (hi lo : Byte) : loByte (be16 hi lo) = lo := by
  apply BitVec.eq_of_getLsbD_eq
  intro i h
  simp [be16, loByte, h, show i < 16 by omega]

theorem be16_lt (hi lo : Byte) : (be16 hi lo).toNat ≤ 65535 := by
  have := (be16 hi lo).isLt
  omega

theorem hdrFields_n_le (h : List Byte) : (hdrFields h).n ≤ Config.maxN := by
  have h1 := (hdrFields h).dl.isLt
  have h2 := (hdrFields h).ol.isLt
  simp only [HdrFields.n, Config.maxN]
  omega

/-- The big-endian number of two bytes (R41). -/
theorem be16_toNat (hi lo : Byte) : (be16 hi lo).toNat = 256 * hi.toNat + lo.toNat := by
  have h1 := hi.isLt
  have h2 := lo.isLt
  simp only [be16, BitVec.truncate_eq_setWidth, BitVec.toNat_or, BitVec.toNat_shiftLeft, BitVec.toNat_setWidth]
  rw [Nat.mod_eq_of_lt (by omega : hi.toNat < 2 ^ 16), Nat.mod_eq_of_lt (by omega : lo.toNat < 2 ^ 16),
    Nat.mod_eq_of_lt (by rw [Nat.shiftLeft_eq]; omega), ← Nat.shiftLeft_add_eq_or_of_lt h2, Nat.shiftLeft_eq]
  omega

@[simp] theorem crc8From_nil (c : Byte) : crc8From c [] = c := rfl

@[simp] theorem crc8From_cons (c b : Byte) (s : List Byte) : crc8From c (b :: s) = crc8From (crc8Step c b) s := rfl

theorem crc8From_append (c : Byte) (s t : List Byte) : crc8From c (s ++ t) = crc8From (crc8From c s) t := by
  simp [crc8From]

@[simp] theorem crc8_nil : crc8 [] = 0 := rfl

end Sys2Proof.Machine
end

