-- ==== Sys2Proof/Laws/Framer.lean ====
section
/-! SUPPORT. The run loop stops by itself, so its bound on rounds is never seen; feeding in pieces. -/

namespace Sys2Proof.Machine

variable {pol : Config.ResumePolicy}

/-- Rounds a framer can still go on for (R132): an arm that goes on makes it smaller. -/
def Framer.rounds (f : Framer) : Nat :=
  match f.st with
  | .seekingSync => 4 * f.q.length
  | .readingHeader => 4 * f.q.length - 1
  | .readingBody => 4 * f.q.length - 2
  | .emitting => if f.q.length = 0 then 1 else 4 * f.q.length - 3

/-- One-byte arms and whole-frame arms all drop at least one byte. -/
theorem resumeDrop_pos (q : List Byte) : 1 ≤ resumeDrop pol q := by
  cases pol
  · exact le_refl 1
  · simp [resumeDrop, frameLength]

theorem frameLength_ge (q : List Byte) : 7 ≤ frameLength q := by
  simp only [frameLength, Config.hdrSize]
  omega

theorem framerArm_rounds {f g : Framer} {es : List FramerEvent} (h : framerArm pol f = .go g es) :
    g.rounds < f.rounds := by
  obtain ⟨st, q⟩ := f
  cases st
  · cases q with
    | nil => simp [framerArm, armSeekingSync] at h
    | cons b t =>
      simp only [framerArm, armSeekingSync] at h
      split at h <;> simp only [ArmResult.go.injEq] at h <;> obtain ⟨rfl, -⟩ := h <;>
        simp [Framer.rounds, qDrop]
  · simp only [framerArm, armReadingHeader] at h
    split at h
    · cases h
    · have h6 : 6 ≤ q.length := by simpa [Config.hdrSize] using ‹¬ q.length < Config.hdrSize›
      split at h <;> simp only [ArmResult.go.injEq] at h <;> obtain ⟨rfl, -⟩ := h <;>
        simp only [Framer.rounds, qDrop, List.length_drop] <;> omega
  · simp only [framerArm, armReadingBody] at h
    have := frameLength_ge q
    split at h
    · cases h
    · simp only [ArmResult.go.injEq] at h
      obtain ⟨rfl, -⟩ := h
      simp only [Framer.rounds]
      split <;> omega
  · simp only [framerArm, armEmitting] at h
    have h1 := frameLength_ge q
    have h2 := resumeDrop_pos (pol := pol) q
    split at h <;> simp only [ArmResult.go.injEq] at h <;> obtain ⟨rfl, -⟩ := h <;>
      simp only [Framer.rounds, qDrop, List.length_drop] <;> split <;> omega

/-- With rounds to spare, one more changes nothing. -/
theorem framerLoop_succ {n : Nat} {f : Framer} (h : f.rounds < n) :
    framerLoop pol (n + 1) f = framerLoop pol n f := by
  induction n generalizing f with
  | zero => omega
  | succ n ih =>
    rw [framerLoop, framerLoop]
    cases hf : framerArm pol f with
    | stop => rfl
    | go g es =>
      have hr := framerArm_rounds hf
      simp only []
      rw [ih (by omega)]

theorem framerLoop_of_lt {n : Nat} {f : Framer} (h : f.rounds < n) :
    framerLoop pol n f = framerLoop pol (f.rounds + 1) f := by
  induction n with
  | zero => omega
  | succ n ih =>
    rcases Nat.lt_or_ge f.rounds n with hlt | hge
    · rw [framerLoop_succ hlt, ih hlt]
    · rw [show n = f.rounds by omega]

theorem Framer.rounds_lt_fuel (f : Framer) : f.rounds < framerFuel f := by
  unfold Framer.rounds framerFuel
  split
  · omega
  · omega
  · omega
  · split <;> omega

/-- `FramerRun()` unfolded by one arm (R121). -/
theorem framerRun_eq (f : Framer) :
    framerRun pol f =
      match framerArm pol f with
      | .stop => (f, [])
      | .go g es => ((framerRun pol g).1, es ++ (framerRun pol g).2) := by
  unfold framerRun
  rw [framerLoop_of_lt f.rounds_lt_fuel, framerLoop]
  cases hf : framerArm pol f with
  | stop => rfl
  | go g es =>
    have hr := framerArm_rounds hf
    simp only []
    rw [framerLoop_of_lt hr, ← framerLoop_of_lt g.rounds_lt_fuel]

theorem framerRun_of_stop {f : Framer} (h : framerArm pol f = .stop) : framerRun pol f = (f, []) := by
  rw [framerRun_eq, h]

theorem framerRun_of_go {f g : Framer} {es : List FramerEvent} (h : framerArm pol f = .go g es) :
    framerRun pol f = ((framerRun pol g).1, es ++ (framerRun pol g).2) := by
  rw [framerRun_eq, h]

/-- Induction along the loop: prove it where the arm stops, and across an arm that goes on. -/
theorem framerRun_induct {P : Framer → Framer × List FramerEvent → Prop}
    (stop : ∀ f, framerArm pol f = .stop → P f (f, []))
    (go : ∀ f g es, framerArm pol f = .go g es → P g (framerRun pol g) →
      P f ((framerRun pol g).1, es ++ (framerRun pol g).2))
    (f : Framer) : P f (framerRun pol f) := by
  generalize hn : f.rounds = n
  induction n using Nat.strongRecOn generalizing f with
  | ind n ih =>
    cases hf : framerArm pol f with
    | stop =>
      rw [framerRun_of_stop hf]
      exact stop f hf
    | go g es =>
      rw [framerRun_of_go hf]
      exact go f g es hf (ih g.rounds (by have := framerArm_rounds hf; omega) g rfl)

@[simp] theorem framerFeed_nil (f : Framer) : framerFeed pol f [] = (f, []) := rfl

theorem framerFeed_cons (f : Framer) (b : Byte) (bs : List Byte) :
    framerFeed pol f (b :: bs) =
      ((framerFeed pol (framerPush pol f b).1 bs).1,
        (framerPush pol f b).2 ++ (framerFeed pol (framerPush pol f b).1 bs).2) := rfl

@[simp] theorem framerFeed_singleton (f : Framer) (b : Byte) : framerFeed pol f [b] = framerPush pol f b := by
  simp [framerFeed_cons]

@[simp] theorem packetsOf_append (a b : List FramerEvent) : packetsOf (a ++ b) = packetsOf a ++ packetsOf b := by
  simp [packetsOf]

@[simp] theorem reportsOf_append (a b : List FramerEvent) : reportsOf (a ++ b) = reportsOf a ++ reportsOf b := by
  simp [reportsOf]

end Sys2Proof.Machine
end

