-- ==== Sys2Proof/Laws/PerInstr.lean ====
section
/-! SUPPORT. The statements made per instruction. -/

namespace Sys2Proof.Laws.OpRow

/-- The operation map has the instruction's row: its code, its mnemonic, and its operands read back from the ports
the encoder writes (R71). -/
def Statement (i : Instr) : Prop :=
  ∃ r ∈ opRows, r.op = i.opcode ∧ r.mnemonic = i.mnemonic ∧ r.build i.ports = i

theorem crc8GenTable : Statement .crc8GenTable := ⟨opRows[0], by simp [opRows], rfl, rfl, rfl⟩
theorem crc8Calc (buf : Option (List Byte)) : Statement (.crc8Calc buf) :=
  ⟨opRows[1], by simp [opRows], rfl, rfl, rfl⟩
theorem crc8CalcR (buf : Option (List Byte)) (offset length : SInt32) : Statement (.crc8CalcR buf offset length) :=
  ⟨opRows[2], by simp [opRows], rfl, rfl, rfl⟩
theorem hdrValidate (h : BitVec 48) : Statement (.hdrValidate h) := ⟨opRows[3], by simp [opRows], rfl, rfl, rfl⟩
theorem frmPush (b : Byte) : Statement (.frmPush b) := ⟨opRows[4], by simp [opRows], rfl, rfl, rfl⟩
theorem frmFeed (bytes : List Byte) : Statement (.frmFeed bytes) := ⟨opRows[5], by simp [opRows], rfl, rfl, rfl⟩
theorem frmClear : Statement .frmClear := ⟨opRows[6], by simp [opRows], rfl, rfl, rfl⟩
theorem pktEncode (ty : Byte) (data optData : List Byte) : Statement (.pktEncode ty data optData) :=
  ⟨opRows[7], by simp [opRows], rfl, rfl, rfl⟩
theorem adrEncH (c : Byte) : Statement (.adrEncH c) := ⟨opRows[8], by simp [opRows], rfl, rfl, rfl⟩
theorem adrDecH (n : Nibble) : Statement (.adrDecH n) := ⟨opRows[9], by simp [opRows], rfl, rfl, rfl⟩
theorem adrEncD (d : SInt32) : Statement (.adrEncD d) := ⟨opRows[10], by simp [opRows], rfl, rfl, rfl⟩
theorem adrDecD (n : Nibble) : Statement (.adrDecD n) := ⟨opRows[11], by simp [opRows], rfl, rfl, rfl⟩
theorem evtNew (source : Source) (hi lo : Nibble) : Statement (.evtNew source hi lo) :=
  ⟨opRows[12], by simp [opRows], rfl, rfl, rfl⟩
theorem aevNew (source : Source) (c : Byte) (d : SInt32) : Statement (.aevNew source c d) :=
  ⟨opRows[13], by simp [opRows], rfl, rfl, rfl⟩
theorem aevHouse (e : Event) : Statement (.aevHouse e) := ⟨opRows[14], by simp [opRows], rfl, rfl, rfl⟩
theorem aevDevice (e : Event) : Statement (.aevDevice e) := ⟨opRows[15], by simp [opRows], rfl, rfl, rfl⟩
theorem evtByte (e : Event) : Statement (.evtByte e) := ⟨opRows[16], by simp [opRows], rfl, rfl, rfl⟩
theorem aevShow (e : Event) : Statement (.aevShow e) := ⟨opRows[17], by simp [opRows], rfl, rfl, rfl⟩

end Sys2Proof.Laws.OpRow
end

