-- ==== Sys2Proof/Laws/Rescan.lean ====
section
/-! SUPPORT. The framer decides on a fixed prefix of its window: running before or after a byte arrives is the same,
re-scanning is feeding again, and a push keeps the framer quiescent. -/

namespace Sys2Proof.Machine

variable {pol : Config.ResumePolicy}

/-- What holds inside the loop: a framer past `SeekingSync` has its candidate, past `ReadingHeader` a valid header,
and past `ReadingBody` its whole frame. -/
def Framer.Fits (f : Framer) : Prop :=
  match f.st with
  | .seekingSync => True
  | .readingHeader => 1 ≤ f.q.length ∧ byteAt f.q 0 = Config.sync
  | .readingBody => 6 ≤ f.q.length ∧ byteAt f.q 0 = Config.sync ∧ hdrValidate (slice f.q 0 6) = .ok
  | .emitting =>
    frameLength f.q ≤ f.q.length ∧ byteAt f.q 0 = Config.sync ∧ hdrValidate (slice f.q 0 6) = .ok

/-- The framer with one more byte at the back of its window. -/
def Framer.append (f : Framer) (b : Byte) : Framer := { f with q := qAppend f.q b }

@[simp] theorem Framer.append_st (f : Framer) (b : Byte) : (f.append b).st = f.st := rfl
@[simp] theorem Framer.append_q (f : Framer) (b : Byte) : (f.append b).q = f.q ++ [b] := rfl

theorem framerPush_eq (f : Framer) (b : Byte) : framerPush pol f b = framerRun pol (f.append b) := rfl

theorem hdrFields_append (q : List Byte) (b : Byte) (h : 6 ≤ q.length) : hdrFields (q ++ [b]) = hdrFields q := by
  simp only [hdrFields, Config.offDlHi, Config.offDlLo, Config.offOl, Config.offType, Config.offHcrc]
  rw [byteAt_append_left _ _ 1 (by omega), byteAt_append_left _ _ 2 (by omega), byteAt_append_left _ _ 3 (by omega),
    byteAt_append_left _ _ 4 (by omega), byteAt_append_left _ _ 5 (by omega)]

theorem frameLength_append (q : List Byte) (b : Byte) (h : 6 ≤ q.length) :
    frameLength (q ++ [b]) = frameLength q := by
  simp only [frameLength, hdrFields_append q b h]

theorem hdrFields_n_lt (q : List Byte) : Config.hdrSize + (hdrFields q).n < frameLength q := by
  simp only [frameLength]
  omega

theorem payloadOk_append (q : List Byte) (b : Byte) (h : frameLength q ≤ q.length) :
    payloadOk (q ++ [b]) = payloadOk q := by
  have h6 := frameLength_ge q
  have hn := hdrFields_n_lt q
  simp only [payloadOk, hdrFields_append q b (by omega)]
  rw [slice_append_left _ _ _ _ (by omega), byteAt_append_left _ _ _ (by omega)]

theorem packetAt_append (q : List Byte) (b : Byte) (h : frameLength q ≤ q.length) :
    packetAt (q ++ [b]) = packetAt q := by
  have h6 := frameLength_ge q
  have hn := hdrFields_n_lt q
  have hd : (hdrFields q).dl.toNat ≤ (hdrFields q).n := by simp [HdrFields.n]
  simp only [packetAt, hdrFields_append q b (by omega)]
  rw [slice_append_left _ _ _ _ (by omega), slice_append_left _ _ _ _ (by omega),
    byteAt_append_left _ _ Config.offSync (by simp only [Config.offSync]; omega),
    byteAt_append_left _ _ _ (by omega)]

theorem resumeDrop_le (q : List Byte) : resumeDrop pol q ≤ frameLength q := by
  have := frameLength_ge q
  cases pol <;> simp only [resumeDrop] <;> omega

theorem resumeDrop_append (q : List Byte) (b : Byte) (h : 6 ≤ q.length) :
    resumeDrop pol (q ++ [b]) = resumeDrop pol q := by
  cases pol
  · rfl
  · simp only [resumeDrop, frameLength_append q b h]

theorem qDrop_append (q : List Byte) (b : Byte) (k : Nat) (h : k ≤ q.length) :
    qDrop (q ++ [b]) k = qDrop q k ++ [b] := by
  simp only [qDrop]
  exact List.drop_append_of_le_length h

/-- An arm that goes on does the same with one more byte behind it. -/
theorem framerArm_append {f g : Framer} {es : List FramerEvent} (hf : f.Fits) (b : Byte)
    (h : framerArm pol f = .go g es) : framerArm pol (f.append b) = .go (g.append b) es := by
  obtain ⟨st, q⟩ := f
  cases st
  · cases q with
    | nil => simp [framerArm, armSeekingSync] at h
    | cons x t =>
      simp only [framerArm, armSeekingSync] at h
      show armSeekingSync (x :: (t ++ [b])) = _
      simp only [armSeekingSync]
      split at h <;> rename_i hx <;> simp only [ArmResult.go.injEq] at h <;> obtain ⟨rfl, rfl⟩ := h <;>
        simp [hx, qDrop, qAppend, Framer.append]
  · simp only [framerArm, armReadingHeader] at h
    split at h
    · cases h
    · rename_i h6
      have h6 : 6 ≤ q.length := by simpa [Config.hdrSize] using h6
      show armReadingHeader (q ++ [b]) = _
      rw [armReadingHeader, if_neg (by simp [Config.hdrSize]; omega), slice_append_left q [b] 0 Config.hdrSize h6]
      split at h <;> simp only [ArmResult.go.injEq] at h <;> obtain ⟨rfl, rfl⟩ := h <;>
        simp [qDrop_append q b 1 (by omega), Framer.append, qAppend]
  · simp only [framerArm, armReadingBody] at h
    split at h
    · cases h
    · simp only [ArmResult.go.injEq] at h
      obtain ⟨rfl, rfl⟩ := h
      have h6 : 6 ≤ q.length := hf.1
      show armReadingBody (q ++ [b]) = _
      rw [armReadingBody, if_neg (by rw [frameLength_append q b h6]; simp; omega)]
      rfl
  · have hl : frameLength q ≤ q.length := hf.1
    have h7 := frameLength_ge q
    have hr := resumeDrop_le (pol := pol) q
    simp only [framerArm, armEmitting] at h
    show armEmitting pol (q ++ [b]) = _
    rw [armEmitting, payloadOk_append q b hl, packetAt_append q b hl, frameLength_append q b (by omega),
      resumeDrop_append q b (by omega), qDrop_append q b _ hl, qDrop_append q b _ (by omega)]
    split at h <;> rename_i hp <;> simp only [ArmResult.go.injEq] at h <;> obtain ⟨rfl, rfl⟩ := h <;>
      simp [hp, Framer.append, qAppend]

/-- An arm that goes on keeps what holds inside the loop. -/
theorem framerArm_fits {f g : Framer} {es : List FramerEvent} (hf : f.Fits) (h : framerArm pol f = .go g es) :
    g.Fits := by
  obtain ⟨st, q⟩ := f
  cases st
  · cases q with
    | nil => simp [framerArm, armSeekingSync] at h
    | cons x t =>
      simp only [framerArm, armSeekingSync] at h
      split at h <;> rename_i hx <;> simp only [ArmResult.go.injEq] at h <;> obtain ⟨rfl, -⟩ := h <;>
        simp [Framer.Fits, hx]
  · simp only [framerArm, armReadingHeader] at h
    split at h
    · cases h
    · rename_i h6
      split at h <;> simp only [ArmResult.go.injEq] at h <;> obtain ⟨rfl, -⟩ := h <;> rename_i hv
      · exact ⟨by simpa [Config.hdrSize] using h6, hf.2, hv⟩
      · exact trivial
      · exact trivial
  · simp only [framerArm, armReadingBody] at h
    split at h
    · cases h
    · simp only [ArmResult.go.injEq] at h
      obtain ⟨rfl, -⟩ := h
      exact ⟨by simp only []; omega, hf.2.1, hf.2.2⟩
  · simp only [framerArm, armEmitting] at h
    split at h <;> simp only [ArmResult.go.injEq] at h <;> obtain ⟨rfl, -⟩ := h <;> exact trivial

/-- Running, then taking a byte and running again, is taking the byte and running. -/
theorem framerRun_append {f : Framer} (hf : f.Fits) (b : Byte) :
    framerRun pol (f.append b) =
      ((framerRun pol ((framerRun pol f).1.append b)).1,
        (framerRun pol f).2 ++ (framerRun pol ((framerRun pol f).1.append b)).2) := by
  revert hf
  refine framerRun_induct (pol := pol)
    (P := fun f r => f.Fits → framerRun pol (f.append b) =
      ((framerRun pol (r.1.append b)).1, r.2 ++ (framerRun pol (r.1.append b)).2)) ?_ ?_ f
  · intro f _ _
    simp
  · intro f g es hg ih hf
    rw [framerRun_of_go (framerArm_append hf b hg), ih (framerArm_fits hf hg)]
    simp [List.append_assoc]

theorem framerFeed_append (f : Framer) (as bs : List Byte) :
    framerFeed pol f (as ++ bs) =
      ((framerFeed pol (framerFeed pol f as).1 bs).1,
        (framerFeed pol f as).2 ++ (framerFeed pol (framerFeed pol f as).1 bs).2) := by
  induction as generalizing f with
  | nil => simp
  | cons a as ih => simp [framerFeed_cons, ih, List.append_assoc]

/-- Re-scanning a window is feeding its bytes to a framer at reset. -/
theorem framerFeed_reset (q : List Byte) :
    framerFeed pol Framer.reset q = framerRun pol { st := .seekingSync, q := q } := by
  induction q using List.reverseRecOn with
  | nil => rw [framerRun_of_stop rfl]; rfl
  | append_singleton q b ih =>
    rw [framerFeed_append, ih, framerFeed_singleton, framerPush_eq]
    exact (framerRun_append (f := { st := .seekingSync, q := q }) trivial b).symm

/-- Between operations the framer fits. -/
theorem Framer.Quiescent.fits {f : Framer} (h : f.Quiescent) : f.Fits := by
  obtain ⟨-, h2, h3, h4, -⟩ := h
  unfold Framer.Fits
  split
  · exact trivial
  · rename_i hs
    exact ⟨(h2 hs).1, (h2 hs).2.2⟩
  · rename_i hs
    exact ⟨(h3 hs).2.2.1, (h3 hs).1, (h3 hs).2.1⟩
  · rename_i hs
    exact absurd hs h4

theorem Framer.Fits.append {f : Framer} (h : f.Fits) (b : Byte) : (f.append b).Fits := by
  obtain ⟨st, q⟩ := f
  cases st
  · exact trivial
  · obtain ⟨h1, h2⟩ := h
    refine ⟨by simp, ?_⟩
    show byteAt (q ++ [b]) 0 = Config.sync
    rw [byteAt_append_left _ _ _ h1]
    exact h2
  · obtain ⟨h1, h2, h3⟩ := h
    have h1 : 6 ≤ q.length := h1
    refine ⟨by simp [Framer.append, qAppend]; omega, ?_, ?_⟩
    · show byteAt (q ++ [b]) 0 = Config.sync
      rw [byteAt_append_left _ _ _ (by omega)]
      exact h2
    · show hdrValidate (slice (q ++ [b]) 0 6) = .ok
      rw [slice_append_left _ _ _ _ h1]
      exact h3
  · obtain ⟨h1, h2, h3⟩ := h
    have h7 := frameLength_ge q
    have h1 : frameLength q ≤ q.length := h1
    refine ⟨?_, ?_, ?_⟩
    · show frameLength (q ++ [b]) ≤ (q ++ [b]).length
      rw [frameLength_append q b (by omega)]
      simp
      omega
    · show byteAt (q ++ [b]) 0 = Config.sync
      rw [byteAt_append_left _ _ _ (by omega)]
      exact h2
    · show hdrValidate (slice (q ++ [b]) 0 6) = .ok
      rw [slice_append_left _ _ _ _ (by omega)]
      exact h3

/-- A framer that fits and stops is quiescent. -/
theorem Framer.Fits.quiescent_of_stop {f : Framer} (hf : f.Fits) (h : framerArm pol f = .stop) : f.Quiescent := by
  obtain ⟨st, q⟩ := f
  cases st
  · cases q with
    | nil => simp [Framer.Quiescent]
    | cons x t =>
      simp only [framerArm, armSeekingSync] at h
      split at h <;> cases h
  · simp only [framerArm, armReadingHeader] at h
    split at h
    · rename_i h6
      have h6 : q.length < 6 := h6
      obtain ⟨h1, h2⟩ := hf
      have h1 : 1 ≤ q.length := h1
      refine ⟨?_, fun _ => ⟨h1, by show q.length ≤ 5; omega, h2⟩, by simp, by simp, ?_⟩
      · simp
        rintro rfl
        simp at h1
      · simp only [Config.maxFrame]
        omega
    · split at h <;> cases h
  · simp only [framerArm, armReadingBody] at h
    split at h
    · rename_i hlt
      obtain ⟨h1, h2, h3⟩ := hf
      have h1 : 6 ≤ q.length := h1
      have hn := hdrFields_n_le q
      have hle : q.length ≤ 6 + (hdrFields q).n := by
        simp only [frameLength, Config.hdrSize] at hlt
        omega
      refine ⟨?_, by simp, fun _ => ⟨h2, h3, h1, hle⟩, by simp, ?_⟩
      · simp
        rintro rfl
        simp at h1
      · simp only [Config.maxN] at hn
        show q.length ≤ 65796
        omega
    · cases h
  · simp only [framerArm, armEmitting] at h
    split at h <;> cases h

theorem framerRun_stops (f : Framer) : framerArm pol (framerRun pol f).1 = .stop :=
  framerRun_induct (pol := pol) (P := fun _ r => framerArm pol r.1 = .stop) (fun _ h => h) (fun _ _ _ _ ih => ih) f

theorem framerRun_fits {f : Framer} (hf : f.Fits) : (framerRun pol f).1.Fits := by
  revert hf
  exact framerRun_induct (pol := pol) (P := fun f r => f.Fits → r.1.Fits) (fun _ _ h => h)
    (fun _ _ _ hg ih h => ih (framerArm_fits h hg)) f

/-- A push keeps the framer quiescent (R24), under both policies. -/
theorem framerPush_quiescent {f : Framer} (h : f.Quiescent) (b : Byte) : (framerPush pol f b).1.Quiescent :=
  (framerRun_fits (h.fits.append b)).quiescent_of_stop (framerRun_stops _)

theorem framerFeed_quiescent {f : Framer} (h : f.Quiescent) (bs : List Byte) : (framerFeed pol f bs).1.Quiescent := by
  induction bs generalizing f with
  | nil => exact h
  | cons b bs ih => exact ih (framerPush_quiescent h b)

theorem Framer.reset_quiescent : Framer.reset.Quiescent := by decide

end Sys2Proof.Machine
end

