-- ==== Sys2Proof/Laws/Run.lean ====
section
/-! SUPPORT. `FramerRun` from each state of the machine, said once in terms of the window; the framer instances of a
state that meets the invariant. -/

namespace Sys2Proof.Machine

variable {pol : Config.ResumePolicy}

/-- The verdict on the first 6 bytes of a window, read from the window itself (R111). -/
theorem hdrValidate_slice (q : List Byte) :
    hdrValidate (slice q 0 6) =
      if byteAt q 0 ≠ Config.sync then .badSync
      else if crc8 (slice q 1 5) ≠ byteAt q 5 then .badHeaderCrc
      else .ok := by
  have h1 : slice (slice q 0 6) 1 5 = slice q 1 5 := by simp [slice, List.take_take]
  have h2 : ∀ i, i < 6 → byteAt (slice q 0 6) i = byteAt q i := by
    intro i hi
    simp [byteAt, slice, hi]
  simp only [hdrValidate, Config.offSync, Config.offDlHi, Config.offHcrc, h1, h2 0 (by omega), h2 5 (by omega)]

theorem framerRun_seeking_nil : framerRun pol { st := .seekingSync, q := [] } = (Framer.reset, []) :=
  framerRun_of_stop rfl

/-- A byte that is not the sync byte is discarded (R122). -/
theorem framerRun_seeking_ne {x : Byte} (t : List Byte) (hx : x ≠ Config.sync) :
    framerRun pol { st := .seekingSync, q := x :: t } = framerRun pol { st := .seekingSync, q := t } := by
  rw [framerRun_of_go (g := { st := .seekingSync, q := t }) (es := [])]
  · simp
  · simp [framerArm, armSeekingSync, hx, qDrop]

/-- The sync byte becomes the candidate (R122). -/
theorem framerRun_seeking_sync (t : List Byte) :
    framerRun pol { st := .seekingSync, q := Config.sync :: t } =
      framerRun pol { st := .readingHeader, q := Config.sync :: t } := by
  rw [framerRun_of_go (g := { st := .readingHeader, q := Config.sync :: t }) (es := [])]
  · simp
  · simp [framerArm, armSeekingSync]

/-- An incomplete header waits (R123). -/
theorem framerRun_header_short {q : List Byte} (h : q.length < 6) :
    framerRun pol { st := .readingHeader, q := q } = ({ st := .readingHeader, q := q }, []) := by
  apply framerRun_of_stop
  simp [framerArm, armReadingHeader, Config.hdrSize, h]

/-- A valid header starts the body (R123). -/
theorem framerRun_header_ok {q : List Byte} (h : 6 ≤ q.length) (h0 : byteAt q 0 = Config.sync)
    (hc : crc8 (slice q 1 5) = byteAt q 5) :
    framerRun pol { st := .readingHeader, q := q } = framerRun pol { st := .readingBody, q := q } := by
  rw [framerRun_of_go (g := { st := .readingBody, q := q }) (es := [])]
  · simp
  · show armReadingHeader q = _
    rw [armReadingHeader, if_neg (by simp [Config.hdrSize]; omega)]
    show (match hdrValidate (slice q 0 6) with | .ok => _ | .badHeaderCrc => _ | .badSync => _) = _
    rw [hdrValidate_slice]
    simp [h0, hc]

/-- A wrong header CRC is reported and the rest of the window scanned again (R123). -/
theorem framerRun_header_bad {q : List Byte} (h : 6 ≤ q.length) (h0 : byteAt q 0 = Config.sync)
    (hc : crc8 (slice q 1 5) ≠ byteAt q 5) :
    framerRun pol { st := .readingHeader, q := q } =
      ((framerRun pol { st := .seekingSync, q := q.drop 1 }).1,
        .report .badHeaderCrc :: (framerRun pol { st := .seekingSync, q := q.drop 1 }).2) := by
  rw [framerRun_of_go (g := { st := .seekingSync, q := q.drop 1 }) (es := [.report .badHeaderCrc])]
  · simp
  · show armReadingHeader q = _
    rw [armReadingHeader, if_neg (by simp [Config.hdrSize]; omega)]
    show (match hdrValidate (slice q 0 6) with | .ok => _ | .badHeaderCrc => _ | .badSync => _) = _
    rw [hdrValidate_slice]
    simp [h0, hc, qDrop]

/-- An incomplete body waits (R124). -/
theorem framerRun_body_short {q : List Byte} (h : q.length < frameLength q) :
    framerRun pol { st := .readingBody, q := q } = ({ st := .readingBody, q := q }, []) := by
  apply framerRun_of_stop
  simp [framerArm, armReadingBody, h]

/-- A complete body gives the Packet, or the report and a new scan (R124, R125, R137). -/
theorem framerRun_body_full {q : List Byte} (h : frameLength q ≤ q.length) :
    framerRun pol { st := .readingBody, q := q } =
      if payloadOk q then
        ((framerRun pol { st := .seekingSync, q := q.drop (frameLength q) }).1,
          .packet (packetAt q) :: (framerRun pol { st := .seekingSync, q := q.drop (frameLength q) }).2)
      else
        ((framerRun pol { st := .seekingSync, q := q.drop (resumeDrop pol q) }).1,
          .report .badPayloadCrc :: (framerRun pol { st := .seekingSync, q := q.drop (resumeDrop pol q) }).2) := by
  rw [framerRun_of_go (g := { st := .emitting, q := q }) (es := [])]
  · split
    · rename_i hp
      rw [framerRun_of_go (g := { st := .seekingSync, q := q.drop (frameLength q) })
        (es := [.packet (packetAt q)])]
      · simp
      · simp [framerArm, armEmitting, hp, qDrop]
    · rename_i hp
      rw [framerRun_of_go (g := { st := .seekingSync, q := q.drop (resumeDrop pol q) })
        (es := [.report .badPayloadCrc])]
      · simp
      · simp [framerArm, armEmitting, hp, qDrop]
  · simp only [framerArm, armReadingBody]
    simp
    omega

/-- Where the invariant holds, every framer instance is quiescent, listed or not. -/
theorem State.Inv.quiescent {s : State} (h : s.Inv) (k : Nat) : (s.framer k).Quiescent := by
  rcases Bank.get_mem s.framers k with h1 | h1
  · rw [State.framer, h1]
    exact Framer.reset_quiescent
  · exact h.2 _ h1

/-- Writing what an instance already is changes nothing. -/
theorem State.Inv.setFramer_same {s : State} (h : s.Inv) {k : Nat} {f : Framer} (hf : s.framer k = f) :
    s.setFramer k f = s := by
  subst hf
  simp [State.setFramer, State.framer, Bank.set_get h.1]

/-- Writing a quiescent framer keeps the invariant. -/
theorem State.Inv.setFramer {s : State} (h : s.Inv) (k : Nat) {f : Framer} (hf : f.Quiescent) :
    (s.setFramer k f).Inv := by
  refine ⟨Bank.wf_set h.1 k f, fun x hx => ?_⟩
  rcases Bank.mem_set hx with rfl | hx
  · exact hf
  · exact h.2 x hx

/-- A quiescent framer with an empty window is at reset. -/
theorem Framer.Quiescent.eq_reset {f : Framer} (h : f.Quiescent) (hq : f.q = []) : f = Framer.reset := by
  obtain ⟨st, q⟩ := f
  have h1 : st = .seekingSync := h.1.2 (by simpa using hq)
  simp only at hq
  subst h1
  subst hq
  rfl

end Sys2Proof.Machine
end

