-- ==== Sys2Proof/Laws/Step.lean ====
section
/-! SUPPORT. What an instruction and a step can do, said once. -/

namespace Sys2Proof.Machine

/-- An instruction leaves either every framer instance alone, or writes the selected one; the rest of the state is
as before but for the response. -/
theorem exec_cases (i : Instr) (s : State) :
    (∃ r, exec i s = .next (s.answer r)) ∨
      (i.usesFramer = true ∧ ∃ f r, exec i s = .next ((s.setFramer s.sel f).answer (.ok r))) := by
  cases i
  case frmPush b => exact .inr ⟨rfl, _, _, rfl⟩
  case frmFeed bytes => exact .inr ⟨rfl, _, _, rfl⟩
  case frmClear => exact .inr ⟨rfl, _, _, rfl⟩
  case crc8Calc buf =>
    cases buf
    · exact .inl ⟨_, rfl⟩
    · exact .inl ⟨_, rfl⟩
  case crc8CalcR buf offset length =>
    refine .inl ?_
    simp only [exec, execCrc8CalcR]
    split
    · exact ⟨_, rfl⟩
    · exact ⟨_, rfl⟩
  case adrEncH c =>
    refine .inl ?_
    simp only [exec, execAdrEncH]
    split
    · exact ⟨_, rfl⟩
    · exact ⟨_, rfl⟩
  case adrEncD d =>
    refine .inl ?_
    simp only [exec, execAdrEncD]
    split
    · exact ⟨_, rfl⟩
    · exact ⟨_, rfl⟩
  case aevNew source c d =>
    refine .inl ?_
    simp only [exec, execAevNew]
    split
    · exact ⟨_, rfl⟩
    · split
      · exact ⟨_, rfl⟩
      · exact ⟨_, rfl⟩
  all_goals exact .inl ⟨_, rfl⟩

/-- A step that goes on is an idle step, an illegal operation code, or a decoded instruction. -/
theorem step_cases {s s' : State} (h : step s = .next s') :
    (∃ rest, (s.inbox = [] ∧ rest = [] ∨ s.inbox = [] :: rest) ∧ s' = s.idle rest) ∨
    (∃ r rs rest, s.inbox = (r :: rs) :: rest ∧ groupClashes (r :: rs) = false ∧
      ((∃ op, decode r.cmd = .error (.illegalOp op) ∧
          s' = (s.accept r (popGroup rs rest)).answer (.fault .invalidArgument)) ∨
        ∃ i, decode r.cmd = .ok i ∧ exec i (s.accept r (popGroup rs rest)) = .next s')) := by
  unfold step fetch at h
  split at h
  · rename_i s1 hs1
    split at hs1
    · rename_i hin
      cases hs1
      cases h
      exact .inl ⟨[], .inl ⟨hin, rfl⟩, rfl⟩
    · rename_i rest hin
      cases hs1
      cases h
      exact .inl ⟨rest, .inr hin, rfl⟩
    · split at hs1 <;> cases hs1
  · cases h
  · rename_i c s1 hs1
    split at hs1
    · cases hs1
    · cases hs1
    · rename_i r rs rest hin
      split at hs1
      · cases hs1
      · rename_i hc
        cases hs1
        refine .inr ⟨r, rs, rest, hin, by simpa using hc, ?_⟩
        split at h
        · rename_i i hd
          exact .inr ⟨i, hd, h⟩
        · rename_i op hd
          cases h
          exact .inl ⟨op, hd, rfl⟩
        · cases h

end Sys2Proof.Machine
end

