-- ==== Sys2Proof/Tests/Slice0.lean ====
section
/-! SUPPORT. Tests: decoding of every operation code (spec 30_encoding.md R71), the well-formedness checks, one step
of each operation against the vectors of spec 95_test_vectors.md, and a witness for the hypotheses of every
statement. -/

namespace Sys2Proof.Tests

open Sys2Proof.Machine

/-! ## Helpers -/

/-- A state whose framer instance 0 is `f`. -/
def withFramer (f : Framer) : State := { State.reset with framers := [(0, f)] }

/-- A state in which one command is issued. -/
def withCommand (op : Byte) (p : Ports) : State :=
  { State.reset with inbox := [[{ caller := 3, framer := 0, cmd := { op := op, ports := p } }]] }

/-- The response an outcome hands over. -/
def answerOf (o : Host.Outcome State Fault Refusal) : Option Response :=
  match o with
  | .next s => s.response
  | .fault _ => none
  | .refused _ => none

/-- The framer instance 0 after an outcome. -/
def framerOf (o : Host.Outcome State Fault Refusal) : Option Framer :=
  match o with
  | .next s => some (s.framer 0)
  | .fault _ => none
  | .refused _ => none

/-- The events of a feed's response. -/
def eventsOf (o : Host.Outcome State Fault Refusal) : Option (List FramerEvent) :=
  match answerOf o with
  | some (.ok (.feed r)) => some r.allEvents
  | _ => none

/-- Frame FA: the source's sample (vectors S3, F1). -/
def frameA : List Byte := [0x55, 0x00, 0x01, 0x00, 0x05, 0x70, 0x08, 0x38]
/-- Frame FZ: no data (vector F3). -/
def frameZ : List Byte := [0x55, 0x00, 0x00, 0x00, 0x02, 0x0E, 0x00]
/-- Frame FB (vector F4). -/
def frameB : List Byte := [0x55, 0x00, 0x03, 0x02, 0x01, 0x90, 0xF6, 0x50, 0x01, 0x02, 0xFF, 0x0C]
/-- The Packet of FA (vector F1). -/
def packetA : Packet := ⟨0x55, 1, 0, 0x05, 0x70, [0x08], [], 0x38⟩
/-- The Packet of FB (vector F4). -/
def packetB : Packet := ⟨0x55, 3, 2, 0x01, 0x90, [0xF6, 0x50, 0x01], [0x02, 0xFF], 0x0C⟩
/-- The Packet of FZ (vector F3). -/
def packetZ : Packet := ⟨0x55, 0, 0, 0x02, 0x0E, [], [], 0x00⟩
/-- The check string "123456789" (vector S1). -/
def checkBytes : List Byte := [0x31, 0x32, 0x33, 0x34, 0x35, 0x36, 0x37, 0x38, 0x39]

/-- A framer waiting for its header (vector F2). -/
def inHeader : Framer := ⟨.readingHeader, [0x55, 0x00, 0x01]⟩
/-- A framer with 5 header bytes. -/
def atHeaderEnd : Framer := ⟨.readingHeader, [0x55, 0x00, 0x01, 0x00, 0x05]⟩
/-- A framer just past a valid header. -/
def atBodyStart : Framer := ⟨.readingBody, [0x55, 0x00, 0x01, 0x00, 0x05, 0x70]⟩
/-- A framer that lacks only the payload CRC (vector F2). -/
def atBodyEnd : Framer := ⟨.readingBody, [0x55, 0x00, 0x01, 0x00, 0x05, 0x70, 0x08]⟩

/-! ## Every operation code decodes (R71; the codes written out bit by bit) -/

theorem test_decode_crc8GenTable : decode ⟨0b00010000, Ports.zero⟩ = .ok .crc8GenTable := by decide
theorem test_decode_crc8Calc :
    decode ⟨0b00010001, { Ports.zero with buf := some [0x31] }⟩ = .ok (.crc8Calc (some [0x31])) := by decide
theorem test_decode_crc8CalcR :
    decode ⟨0b00010010, { Ports.zero with buf := some [0x31], offset := 1, length := 0 }⟩ =
      .ok (.crc8CalcR (some [0x31]) 1 0) := by decide
theorem test_decode_hdrValidate :
    decode ⟨0b00100000, { Ports.zero with hdr := 0x550001000570 }⟩ = .ok (.hdrValidate 0x550001000570) := by decide
theorem test_decode_frmPush : decode ⟨0b00110000, { Ports.zero with b := 0x55 }⟩ = .ok (.frmPush 0x55) := by decide
theorem test_decode_frmFeed :
    decode ⟨0b00110001, { Ports.zero with bytes := [0x55, 0x00] }⟩ = .ok (.frmFeed [0x55, 0x00]) := by decide
theorem test_decode_frmClear : decode ⟨0b00110010, Ports.zero⟩ = .ok .frmClear := by decide
theorem test_decode_pktEncode :
    decode ⟨0b01000000, { Ports.zero with ty := 5, data := [8], optData := [9] }⟩ = .ok (.pktEncode 5 [8] [9]) := by
  decide
theorem test_decode_adrEncH : decode ⟨0b01010000, { Ports.zero with ch := 0x41 }⟩ = .ok (.adrEncH 0x41) := by decide
theorem test_decode_adrDecH : decode ⟨0b01010001, { Ports.zero with n := 0x6 }⟩ = .ok (.adrDecH 0x6) := by decide
theorem test_decode_adrEncD : decode ⟨0b01010010, { Ports.zero with code := 16 }⟩ = .ok (.adrEncD 16) := by decide
theorem test_decode_adrDecD : decode ⟨0b01010011, { Ports.zero with n := 0xF }⟩ = .ok (.adrDecD 0xF) := by decide
theorem test_decode_evtNew (source : Source) :
    decode ⟨0b01010100, { Ports.zero with source := source, hi := 0x6, lo := 0x1 }⟩ =
      .ok (.evtNew source 0x6 0x1) := rfl
theorem test_decode_aevNew (source : Source) :
    decode ⟨0b01010101, { Ports.zero with source := source, house := 0x41, device := 2 }⟩ =
      .ok (.aevNew source 0x41 2) := rfl
theorem test_decode_aevHouse (source : Source) :
    decode ⟨0b01010110, { Ports.zero with e := ⟨source, 0x6, 0x1⟩ }⟩ = .ok (.aevHouse ⟨source, 0x6, 0x1⟩) := rfl
theorem test_decode_aevDevice (source : Source) :
    decode ⟨0b01010111, { Ports.zero with e := ⟨source, 0x6, 0x1⟩ }⟩ = .ok (.aevDevice ⟨source, 0x6, 0x1⟩) := rfl
theorem test_decode_evtByte (source : Source) :
    decode ⟨0b01011000, { Ports.zero with e := ⟨source, 0x6, 0x1⟩ }⟩ = .ok (.evtByte ⟨source, 0x6, 0x1⟩) := rfl
theorem test_decode_aevShow (source : Source) :
    decode ⟨0b01011001, { Ports.zero with e := ⟨source, 0x6, 0x1⟩ }⟩ = .ok (.aevShow ⟨source, 0x6, 0x1⟩) := rfl

/-- R72: codes just outside the map. -/
theorem test_decode_illegal :
    ∀ op ∈ ([0x00, 0x0F, 0x13, 0x1F, 0x21, 0x2F, 0x33, 0x3F, 0x41, 0x4F, 0x5A, 0x7F, 0xFF] : List Byte),
      decode ⟨op, Ports.zero⟩ = .error (.illegalOp op) := by decide

/-- No two rows of the operation map have the same code. -/
theorem test_rows_distinct : opRows.Pairwise (fun x y => x.op ≠ y.op) := by decide

theorem test_table_word : decodeTableWord 8 0x59 = some (.aevShow ⟨0, 0, 0⟩) := by decide

/-! ## The well-formedness checks refuse -/

/-- R40: what the check of a CRC buffer says. -/
theorem wf_calc_iff (bs : List Byte) :
    (Instr.crc8Calc (some bs)).wellFormed = decide (bs.length < 2147483648) := rfl

theorem wf_calcr_iff (bs : List Byte) (offset length : SInt32) :
    (Instr.crc8CalcR (some bs) offset length).wellFormed = decide (bs.length < 2147483648) := rfl

/-- R150: what the check of the encoder's segments says. -/
theorem wf_encode_iff (ty : Byte) (data optData : List Byte) :
    (Instr.pktEncode ty data optData).wellFormed =
      (decide (data.length ≤ 65535) && decide (optData.length ≤ 255)) := rfl

theorem test_wf_calc_buffer_too_long :
    (Instr.crc8Calc (some (List.replicate 2147483648 0x00))).wellFormed = false := by
  rw [wf_calc_iff, List.length_replicate]; decide

theorem test_wf_calcr_buffer_too_long :
    (Instr.crc8CalcR (some (List.replicate 2147483648 0x00)) 0 0).wellFormed = false := by
  rw [wf_calcr_iff, List.length_replicate]; decide

theorem test_wf_data_too_long : (Instr.pktEncode 0 (List.replicate 65536 0x00) []).wellFormed = false := by
  rw [wf_encode_iff, List.length_replicate]; decide

theorem test_wf_opt_too_long : (Instr.pktEncode 0 [] (List.replicate 256 0x00)).wellFormed = false := by
  rw [wf_encode_iff, List.length_replicate]; decide

/-- The longest segments are presentable. -/
theorem test_wf_longest_segments :
    (Instr.pktEncode 0 (List.replicate 65535 0x00) (List.replicate 255 0x00)).wellFormed = true := by
  rw [wf_encode_iff, List.length_replicate, List.length_replicate]; decide

set_option maxRecDepth 4096 in
theorem test_refused_operand :
    decode ⟨0x40, { Ports.zero with optData := List.replicate 256 0x00 }⟩ = .error .operandNotPresentable := by
  decide

/-! ## One step of each operation (95_test_vectors.md) -/

/-- K19. -/
theorem test_genTable : [0, 1, 8, 16, 255].map (fun i => tbl[i]?) =
    [some 0x00, some 0x07, some 0x38, some 0x70, some 0xF3] := by decide
/-- S1. -/
theorem test_calc : answerOf (exec (.crc8Calc (some checkBytes)) State.reset) = some (.ok (.byte 0xF4)) := by
  decide
/-- K15. -/
theorem test_calc_absent : answerOf (exec (.crc8Calc none) State.reset) = some (.fault .invalidArgument) := by
  decide
/-- K9. -/
theorem test_calcr : answerOf (exec (.crc8CalcR (some checkBytes) 3 4) State.reset) = some (.ok (.byte 0xD2)) := by
  decide
/-- K10 to K14, K16: the ends of the range, and no wrap-around. -/
theorem test_calcr_ranges :
    answerOf (exec (.crc8CalcR (some checkBytes) 9 0) State.reset) = some (.ok (.byte 0x00)) ∧
    ([(10, 0), (-1, 1), (0, -1), (5, 5), (2147483647, 2147483647)] : List (SInt32 × SInt32)).map
        (fun x => answerOf (exec (.crc8CalcR (some checkBytes) x.1 x.2) State.reset)) =
      List.replicate 5 (some (.fault .invalidArgument)) := by decide
/-- H1 to H4. -/
theorem test_hdrValidate :
    ([0x550001000570, 0x540001000570, 0x550001000571, 0x540001000571] : List (BitVec 48)).map
        (fun h => answerOf (exec (.hdrValidate h) State.reset)) =
      [some (.ok (.header .ok)), some (.ok (.header .badSync)), some (.ok (.header .badHeaderCrc)),
        some (.ok (.header .badSync))] := by decide
/-- H7, H8: the data length is big-endian. -/
theorem test_hdrFields : (hdrFields (hdrBytes 0x550102010AE3)).dl = 258 ∧ (hdrFields (hdrBytes 0x55FFFFFFFFDE)).n = 65790 := by
  decide
/-- F2: the last byte of a frame emits its Packet. -/
theorem test_push_emits :
    answerOf (exec (.frmPush 0x38) (withFramer atBodyEnd)) = some (.ok (.push ⟨[.packet packetA], 0, false⟩)) := by
  decide
/-- F2: the sixth byte of a valid header. -/
theorem test_push_header :
    framerOf (exec (.frmPush 0x70) (withFramer atHeaderEnd)) = some atBodyStart := by decide
/-- F8 then F9: after a payload-CRC failure the scan resumes one byte past the candidate (D9), and the frame inside
the failed span is found. -/
theorem test_feed_rescan :
    eventsOf (exec (.frmFeed ([0x55, 0x00, 0x08, 0x00, 0x01, 0x56] ++ frameA ++ [0x4B] ++ frameZ)) State.reset) =
      some [.report .badPayloadCrc, .packet packetA, .packet packetZ] := by decide
/-- F7: a stray sync byte between two frames. -/
theorem test_feed_stray_sync :
    eventsOf (exec (.frmFeed (frameA ++ [0x55] ++ frameB)) State.reset) =
      some [.packet packetA, .report .badHeaderCrc, .packet packetB] := by decide
/-- F9 under the policy that is not adopted (R137): the frame inside the failed span is lost. -/
theorem test_skip_attempt :
    (framerFeed .skipAttempt Framer.reset ([0x55, 0x00, 0x08, 0x00, 0x01, 0x56] ++ frameA ++ [0x4B] ++ frameZ)).2 =
      [.report .badPayloadCrc, .packet packetZ] := by decide
/-- F18: the clear. -/
theorem test_clear :
    framerOf (exec .frmClear (withFramer inHeader)) = some ⟨.seekingSync, []⟩ ∧
    answerOf (exec .frmClear (withFramer inHeader)) = some (.ok (.cleared ⟨[], 0, false⟩)) := by decide
/-- E1 and E3. -/
theorem test_encode :
    answerOf (exec (.pktEncode 0x05 [0x08] []) State.reset) = some (.ok (.frame frameA)) ∧
    answerOf (exec (.pktEncode 0x01 [0xF6, 0x50, 0x01] [0x02, 0xFF]) State.reset) = some (.ok (.frame frameB)) := by
  decide
/-- A5b: these characters fault for every house table. -/
theorem test_encH_faults : ∀ c ∈ ([0x40, 0x51, 0x60, 0x71, 0x31, 0x00, 0xFF] : List Byte),
    answerOf (exec (.adrEncH c) State.reset) = some (.fault .invalidArgument) := by decide
/-- A4, with the suggested X10 table: 'A', 'm' and 'p'. -/
theorem test_encH_x10 : ([0x41, 0x6D, 0x70] : List Byte).map (houseEncWith Config.x10HouseTable) =
    [some 0x6, some 0x0, some 0xC] := by decide
/-- A5, with the suggested X10 table: 0x6 is 'A', 0x0 is 'M', 0xC is 'P'. -/
theorem test_decH_x10 : ([0x6, 0x0, 0xC] : List Nibble).map (houseDecWith Config.x10HouseTable) =
    [0x41, 0x4D, 0x50] := by decide
/-- A1. -/
theorem test_encD : ([1, 2, 8, 15, 16] : List SInt32).map (fun d => answerOf (exec (.adrEncD d) State.reset)) =
    [some (.ok (.nibble 0x0)), some (.ok (.nibble 0x1)), some (.ok (.nibble 0x7)), some (.ok (.nibble 0xE)),
      some (.ok (.nibble 0xF))] := by decide
/-- A2. -/
theorem test_encD_faults : ([0, 17, -1, 2147483647, -2147483648] : List SInt32).map
    (fun d => answerOf (exec (.adrEncD d) State.reset)) = List.replicate 5 (some (.fault .invalidArgument)) := by
  decide
/-- A3. -/
theorem test_decD : ([0x0, 0x7, 0xF] : List Nibble).map (fun n => answerOf (exec (.adrDecD n) State.reset)) =
    [some (.ok (.device 1)), some (.ok (.device 8)), some (.ok (.device 16))] := by decide
/-- A11. -/
theorem test_evtNew (source : Source) :
    answerOf (exec (.evtNew source 0xF 0xF) State.reset) = some (.ok (.event ⟨source, 0xF, 0xF⟩)) := rfl
/-- A10: each invalid operand faults. -/
theorem test_aevNew_faults :
    answerOf (exec (.aevNew 9 0x51 0) State.reset) = some (.fault .invalidArgument) ∧
    answerOf (exec (.aevNew 9 0x51 1) State.reset) = some (.fault .invalidArgument) := by decide
/-- A7: the address byte. -/
theorem test_evtByte : answerOf (exec (.evtByte ⟨9, 0x6, 0x0⟩) State.reset) = some (.ok (.byte 0x60)) := by
  decide
/-- A11: the device code of the top nibble needs five bits. -/
theorem test_aevDevice : answerOf (exec (.aevDevice ⟨9, 0xF, 0xF⟩) State.reset) = some (.ok (.device 16)) := by
  decide
/-- A12's letter and device, with the suggested X10 table. -/
theorem test_show_x10 : (houseDecWith Config.x10HouseTable 0x0, devDec 0xC) = (0x4D, 13) := by decide

/-- P4 line 5: an operation code outside the map faults and leaves the framer as it was. -/
theorem test_step_illegal :
    answerOf (step { withFramer inHeader with inbox := [[⟨3, 0, ⟨0x7F, Ports.zero⟩⟩]] }) =
      some (.fault .invalidArgument) ∧
    framerOf (step { withFramer inHeader with inbox := [[⟨3, 0, ⟨0x7F, Ports.zero⟩⟩]] }) = some inHeader := by
  decide

/-! ## Witnesses: states and operands that meet the hypotheses of the statements -/

theorem witness_DecodeOfEncode :
    (Instr.pktEncode 5 [8] []).wellFormed = true ∧
    (Instr.crc8Calc (some (List.replicate 2147483648 0x00))).wellFormed = false ∧
    (Instr.pktEncode 0 (List.replicate 65535 0x00) (List.replicate 255 0x00)).wellFormed = true ∧
    decode ⟨0x32, Ports.zero⟩ = .ok .frmClear :=
  ⟨by decide, test_wf_calc_buffer_too_long, test_wf_longest_segments, by decide⟩

/-- Both ends of each illegal range of R72. -/
theorem witness_IllegalOperationCodeFaults :
    ∀ op ∈ ([0x00, 0x0F, 0x13, 0x1F, 0x21, 0x2F, 0x33, 0x3F, 0x41, 0x4F, 0x5A, 0xFF] : List Byte),
      (withCommand op Ports.zero).inbox = ([⟨3, 0, ⟨op, Ports.zero⟩⟩] :: []) ∧
      groupClashes [⟨3, 0, ⟨op, Ports.zero⟩⟩] = false ∧
      (op.toNat ≤ 0x0F ∨ (0x13 ≤ op.toNat ∧ op.toNat ≤ 0x1F) ∨ (0x21 ≤ op.toNat ∧ op.toNat ≤ 0x2F) ∨
        (0x33 ≤ op.toNat ∧ op.toNat ≤ 0x3F) ∨ (0x41 ≤ op.toNat ∧ op.toNat ≤ 0x4F) ∨ 0x5A ≤ op.toNat) := by
  decide

/-- A legal code for the second clause. -/
theorem witness_IllegalOperationCodeFaults_legal :
    groupClashes [⟨3, 0, ⟨0x59, Ports.zero⟩⟩] = false ∧ (0x59 : Byte) ∈ ([0x58, 0x59] : List Byte) := by decide

/-- Two operations in flight at once on different instances: the group does not clash, and more follows.  It meets the
hypotheses of `StepPerformsDecodedInstruction` and `UnpresentableOperandRefused`. -/
theorem witness_StepPerformsDecodedInstruction :
    groupClashes [⟨1, 0, ⟨0x30, Ports.zero⟩⟩, ⟨2, 1, ⟨0x30, Ports.zero⟩⟩] = false ∧
    decode ⟨0x30, Ports.zero⟩ = .ok (.frmPush 0x00) := by decide

/-- The least operands no port can carry (the greatest it can carry is `test_wf_longest_segments`). -/
theorem witness_UnpresentableOperandRefused :
    65535 < (List.replicate 65536 (0x00 : Byte)).length ∧ 255 < (List.replicate 256 (0x00 : Byte)).length ∧
    2147483648 ≤ (List.replicate 2147483648 (0x00 : Byte)).length := by
  rw [List.length_replicate, List.length_replicate, List.length_replicate]; decide

theorem witness_FetchWordIsPerformed : decodeTableWord 8 0x10 = some .crc8GenTable := by decide

theorem witness_IdleStepKeepsEverything :
    State.reset.inbox = [] ∧ ({ State.reset with inbox := [[]] } : State).inbox = [] :: [] := by decide

/-- Two framer operations on one instance, a pure operation between them. -/
theorem witness_ConcurrentUseOfOneFramerRefused :
    groupClashes [⟨1, 4, ⟨0x31, Ports.zero⟩⟩, ⟨2, 4, ⟨0x10, Ports.zero⟩⟩, ⟨3, 4, ⟨0x32, Ports.zero⟩⟩] = true := by
  decide

theorem witness_CrcLaws :
    checkBytes.length = checkBytes.reverse.length ∧ 8 < checkBytes.length ∧ 7 < 8 := by decide

/-- The ends of a range that passes the four checks, and one that fails each of the last three. -/
theorem witness_CalcRangeResult :
    (0 ≤ (9 : SInt32).toInt ∧ 0 ≤ (0 : SInt32).toInt ∧ (9 : SInt32).toInt + (0 : SInt32).toInt ≤ checkBytes.length) ∧
    (-1 : SInt32).toInt < 0 ∧ (10 : SInt32).toInt + (0 : SInt32).toInt > checkBytes.length := by decide

theorem witness_CalcResult : checkBytes.length < 2147483648 := by decide

/-- A valid header, and the first and last bit of each of the two ranges of flips. -/
theorem witness_HeaderBitFlipsFail :
    exec (.hdrValidate 0x550001000570) State.reset =
      .next { State.reset with response := some (.ok (.header .ok)) } ∧
    ∀ k ∈ [0, 39, 40, 47], k < 48 :=
  ⟨rfl, by decide⟩

theorem witness_PushWhileSeekingSync :
    State.reset.Inv ∧ (State.reset.framer State.reset.sel).q = [] ∧ (0x54 : Byte) ≠ 0x55 := by decide

set_option maxRecDepth 4096 in
/-- Header bytes short of 6, the sixth right (0x70) and the sixth wrong (0x71). -/
theorem witness_PushWhileReadingHeader :
    (withFramer inHeader).Inv ∧ (withFramer atHeaderEnd).Inv ∧
    ((withFramer inHeader).framer 0).st = .readingHeader ∧ ((withFramer atHeaderEnd).framer 0).st = .readingHeader ∧
    (inHeader.q ++ [0x00]).length < 6 ∧ (atHeaderEnd.q ++ [0x70]).length = 6 ∧
    crcByRule (((atHeaderEnd.q ++ [0x70]).drop 1).take 4) = byteAt (atHeaderEnd.q ++ [0x70]) 5 ∧
    crcByRule (((atHeaderEnd.q ++ [0x71]).drop 1).take 4) ≠ byteAt (atHeaderEnd.q ++ [0x71]) 5 := by decide

/-- Body bytes short of the payload CRC, the payload CRC right (0x38) and wrong (0x39). -/
theorem witness_PushWhileReadingBody :
    (withFramer atBodyStart).Inv ∧ (withFramer atBodyEnd).Inv ∧
    ((withFramer atBodyStart).framer 0).st = .readingBody ∧ ((withFramer atBodyEnd).framer 0).st = .readingBody ∧
    (atBodyStart.q ++ [0x08]).length < 7 + (1 + 0) ∧ (atBodyEnd.q ++ [0x38]).length = 7 + (1 + 0) ∧
    crcByRule (((atBodyEnd.q ++ [0x38]).drop 6).take 1) = 0x38 ∧
    crcByRule (((atBodyEnd.q ++ [0x39]).drop 6).take 1) ≠ 0x39 := by decide

/-- A state that meets the invariant with two listed instances, for `FeedIsOnePushPerByte`, `ClearResult`,
`ResetOfOneFramerIsClear`, `FramerOperationsFrame`, `StatusOutputsMatchTheWindow`, `OperationsSeeOnlyTheirFramer`,
`DifferentFramersCommute` and `InvariantHoldsOfEveryInstance`. -/
theorem witness_Inv :
    ({ State.reset with framers := [(0, inHeader), (5, atBodyEnd)] } : State).Inv ∧
    (Instr.frmPush 0x00).usesFramer = true ∧ (0 : Nat) ≠ 5 := by decide

theorem witness_ClearResult : (State.reset.framer State.reset.sel).st = .seekingSync := by decide

theorem witness_StatusOutputsMatchTheWindow :
    answerOf (exec (.frmPush 0x00) (withFramer inHeader)) = some (.ok (.push ⟨[], 4, true⟩)) ∧
    answerOf (exec (.frmFeed []) (withFramer inHeader)) =
      some (.ok (.feed ⟨[], [], [], 0, 3, true⟩)) ∧
    answerOf (exec .frmClear (withFramer inHeader)) = some (.ok (.cleared ⟨[], 0, false⟩)) := by decide

theorem witness_LoopStopsWithinBounds : Framer.Quiescent atBodyEnd ∧ Framer.Quiescent Framer.reset := by
  decide

theorem witness_FeedFromResetIsScan : State.reset.framer State.reset.sel = Framer.reset := by decide

/-- A step from a state that meets the invariant to a next state, with a push and with a feed, for
`EveryStepKeepsInvariant`, `BadSyncNeverReported` and (with its Packet) `EmittedPacketsAreValid`. -/
theorem witness_EveryStepKeepsInvariant :
    (withFramer atBodyEnd).Inv ∧
    answerOf (step { withFramer atBodyEnd with inbox := [[⟨3, 0, ⟨0x30, { Ports.zero with b := 0x38 }⟩⟩]] }) =
      some (.ok (.push ⟨[.packet packetA], 0, false⟩)) ∧
    answerOf (step { withFramer atBodyEnd with inbox := [[⟨3, 0, ⟨0x31, { Ports.zero with bytes := [0x38] }⟩⟩]] }) =
      some (.ok (.feed ⟨[packetA], [], [.packet packetA], 1, 0, false⟩)) := by decide

/-- One byte short of the whole frame. -/
theorem witness_WaitBehindValidHeader :
    (withFramer atBodyStart).Inv ∧ ((withFramer atBodyStart).framer 0).st = .readingBody ∧
    atBodyStart.q.length + [(0x08 : Byte)].length <
      7 + (256 * (byteAt atBodyStart.q 1).toNat + (byteAt atBodyStart.q 2).toNat + (byteAt atBodyStart.q 3).toNat) := by
  decide

theorem witness_CandidateDecidedWithinBound :
    (withFramer inHeader).Inv ∧ ((withFramer inHeader).framer 0).q ≠ [] ∧
    65796 ≤ (List.replicate 65796 (0x00 : Byte)).length :=
  ⟨by decide, by decide, by rw [List.length_replicate]⟩

theorem witness_FrameAfterNoiseIsEmitted :
    State.reset.Inv ∧ (State.reset.framer State.reset.sel).q = [] ∧ (0x55 : Byte) ∉ ([0x00, 0xFF, 0x12] : List Byte) ∧
    ([0x55, 0x08] : List Byte).length ≤ 65535 ∧ ([] : List Byte).length ≤ 255 := by decide

/-- F10: a frame with a wrong payload CRC and no further sync byte in its span. -/
def frameF10 : List Byte := [0x55, 0x00, 0x01, 0x00, 0x05, 0x70, 0x08, 0x39]

/-- The whole hypothesis of `PoliciesAgreeWithoutInnerSync`, of a stream that has a failed attempt. -/
theorem witness_PoliciesAgreeWithoutInnerSync :
    (∀ p N : Nat, p + 6 ≤ frameF10.length → byteAt frameF10 p = 0x55 →
      crc8 (slice frameF10 (p + 1) (p + 5)) = byteAt frameF10 (p + 5) →
      N = (be16 (byteAt frameF10 (p + 1)) (byteAt frameF10 (p + 2))).toNat + (byteAt frameF10 (p + 3)).toNat →
      p + 7 + N ≤ frameF10.length → crc8 (slice frameF10 (p + 6) (p + 6 + N)) ≠ byteAt frameF10 (p + 6 + N) →
      ∀ j, p < j → j < p + 7 + N → byteAt frameF10 j ≠ 0x55) ∧
    (scan .syncPlus1 frameF10).1 = [.report .badPayloadCrc] := by
  refine ⟨?_, by decide⟩
  intro p N hp hs _ _ hl _ j hj hj'
  have hp' : p ≤ 2 := by simpa [frameF10] using hp
  have hl' : p + 7 + N ≤ 8 := hl
  interval_cases p
  · have : j < 8 := by omega
    interval_cases j <;> decide
  · exact absurd hs (by decide)
  · exact absurd hs (by decide)

set_option maxRecDepth 4096 in
theorem witness_EncodeResult :
    ([0x08] : List Byte).length ≤ 65535 ∧ ([] : List Byte).length ≤ 255 ∧
    frameA = [0x55, BitVec.ofNat 8 (1 / 256), BitVec.ofNat 8 (1 % 256), BitVec.ofNat 8 0, 0x05,
        crcByRule [BitVec.ofNat 8 (1 / 256), BitVec.ofNat 8 (1 % 256), BitVec.ofNat 8 0, 0x05]] ++ [0x08] ++ [] ++
      [crcByRule ([0x08] ++ [])] := by decide

theorem witness_FrameRoundTrip : frameWellFormed frameA = true ∧ frameWellFormed frameZ = true := by decide

/-- Both ends of both alphabets, and the codes just outside them. -/
theorem witness_HouseEncodeResult :
    (0x41 : Byte).toNat = 0x41 + (0 : Fin 16).val ∧ (0x50 : Byte).toNat = 0x41 + (15 : Fin 16).val ∧
    (0x61 : Byte).toNat = 0x61 + (0 : Fin 16).val ∧ (0x70 : Byte).toNat = 0x61 + (15 : Fin 16).val ∧
    ∀ c ∈ ([0x40, 0x51, 0x60, 0x71] : List Byte),
      ¬ (0x41 ≤ c.toNat ∧ c.toNat ≤ 0x50) ∧ ¬ (0x61 ≤ c.toNat ∧ c.toNat ≤ 0x70) := by decide

/-- Both ends of the device codes and the values just outside. -/
theorem witness_DeviceEncodeResult :
    (1 ≤ (1 : SInt32).toInt ∧ (1 : SInt32).toInt ≤ 16) ∧ (1 ≤ (16 : SInt32).toInt ∧ (16 : SInt32).toInt ≤ 16) ∧
    (0 : SInt32).toInt ≤ 0 ∧ 17 ≤ (17 : SInt32).toInt ∧ (-2147483648 : SInt32).toInt ≤ 0 := by decide

/-- The first and the last valid pair, the second in lower case, and an invalid operand of each kind, for
`AddressEventNewResult` and `AddressRoundTrip`. -/
theorem witness_AddressEventNewResult :
    (0x41 : Byte).toNat = 0x41 + (0 : Fin 16).val ∧ 1 ≤ (1 : SInt32).toInt ∧ (1 : SInt32).toInt ≤ 16 ∧
    (0x70 : Byte).toNat = 0x61 + (15 : Fin 16).val ∧ 1 ≤ (16 : SInt32).toInt ∧ (16 : SInt32).toInt ≤ 16 ∧
    (¬ (0x41 ≤ (0x51 : Byte).toNat ∧ (0x51 : Byte).toNat ≤ 0x50) ∧
      ¬ (0x61 ≤ (0x51 : Byte).toNat ∧ (0x51 : Byte).toNat ≤ 0x70)) ∧
    (0 : SInt32).toInt < 1 ∧ 16 < (17 : SInt32).toInt := by decide

/-- A request that decodes to an operation that faults, and one whose code is outside the map. -/
theorem witness_InvalidArgumentCausesComplete :
    (withCommand 0x52 Ports.zero).inbox = ([⟨3, 0, ⟨0x52, Ports.zero⟩⟩] :: []) ∧
    groupClashes [⟨3, 0, ⟨0x52, Ports.zero⟩⟩] = false ∧
    decode ⟨0x52, Ports.zero⟩ = .ok (.adrEncD 0) ∧ devEnc 0 = none ∧
    (0x7F : Byte) ∉ ([0x10, 0x11, 0x12, 0x20] : List Byte) := by decide

/-- A faulting step from a state with a framer at work (P4), for `FaultLeavesEverythingElse`. -/
theorem witness_FaultLeavesEverythingElse :
    answerOf (step { withFramer inHeader with inbox := [[⟨3, 0, ⟨0x52, Ports.zero⟩⟩]] }) =
      some (.fault .invalidArgument) := by decide

theorem witness_PureOperationsFrame : (Instr.adrDecD 0x3).usesFramer = false := by decide

end Sys2Proof.Tests
end

/-! # The CRC8 engine

Proofs for spec 40_crc8.md: the literal table against the rule of R91, the fold of R94, the range checks of R96, and
from them the answers of `CRC8.GENTABLE`, `CRC8.CALC` and `CRC8.CALCR`. -/

namespace Sys2Proof.Machine

/-! ## The table (R91 to R93) -/

/-- Every entry of the literal table of R92 is the one R91 derives: a check of the 256 entries. -/
theorem tblRead_eq_crcDerive : ∀ i : Byte, tblRead i = crcDerive i := by decide

/-- The 16 rows of R92 hold 16 bytes each. -/
theorem tbl_length : tbl.length = Config.tableSize := by
  rw [tbl, List.length_flatten]
  decide

/-- Reading by row and column (`tblRead`) and by index are the same read of the table. -/
theorem tbl_getElem?_toNat : ∀ i : Byte, tbl[i.toNat]? = some (tblRead i) := by decide

theorem tbl_eq_map_crcDerive : tbl = (List.range 256).map fun i => crcDerive (BitVec.ofNat 8 i) := by
  apply List.ext_getElem?
  intro i
  by_cases hi : i < 256
  · have hread := tbl_getElem?_toNat (BitVec.ofNat 8 i)
    rw [BitVec.toNat_ofNat, Nat.mod_eq_of_lt hi, tblRead_eq_crcDerive] at hread
    simp [hread, hi]
  · have hlen : tbl.length ≤ i := by rw [tbl_length, Config.tableSize]; omega
    simp [List.getElem?_eq_none hlen, hi]

theorem memRead_tbl : memRead tbl 0 Config.tableSize = tbl :=
  slice_zero_of_length_le (by rw [tbl_length, Nat.zero_add])

/-! ## The fold (R90, R94) -/

theorem crc8Step_eq_crcDerive (c b : Byte) : crc8Step c b = crcDerive (c ^^^ b) := tblRead_eq_crcDerive _

theorem crc8_append_singleton (s : List Byte) (b : Byte) : crc8 (s ++ [b]) = crc8Step (crc8 s) b := by
  simp only [crc8, crc8From_append, crc8From_cons, crc8From_nil]

/-- The fold over the table is the fold over the rule of R91, since each step is. -/
theorem crc8_eq_crcByRule (s : List Byte) : crc8 s = crcByRule s := by
  have hstep : crc8Step = fun c b => crcDerive (c ^^^ b) := funext₂ crc8Step_eq_crcDerive
  rw [crc8, crc8From, hstep, crcByRule, Config.crcSeed]

/-! ## The range of a buffer (R96) -/

theorem memRead_eq_take_drop (s : List Byte) (a n : Nat) : memRead s a n = (s.drop a).take n := by
  rw [memRead, slice, List.drop_take, Nat.add_sub_cancel_left]

/-- A non-negative `int32` and its bits are the same number (R12). -/
theorem toNat_toInt_of_nonneg {x : SInt32} (h : 0 ≤ x.toInt) : x.toInt.toNat = x.toNat :=
  BitVec.toNat_toInt_of_msb x (by simpa [BitVec.msb_eq_toInt] using h)

section Range

variable {bs : List Byte} {offset length : SInt32}

/-- A range that passes the four checks of R96 gives its bytes. -/
theorem crcRange_of_inRange (ho : 0 ≤ offset.toInt) (hl : 0 ≤ length.toInt)
    (hsum : offset.toInt + length.toInt ≤ bs.length) :
    crcRange (some bs) offset length = some ((bs.drop offset.toNat).take length.toNat) := by
  rw [crcRange, if_neg (by omega), if_neg (by omega), if_neg (by omega), memRead_eq_take_drop,
    toNat_toInt_of_nonneg ho, toNat_toInt_of_nonneg hl]

/-- A range that fails one of the last three checks of R96 gives nothing. -/
theorem crcRange_of_outOfRange
    (h : offset.toInt < 0 ∨ length.toInt < 0 ∨ offset.toInt + length.toInt > bs.length) :
    crcRange (some bs) offset length = none := by
  rcases h with ho | hl | hsum
  · rw [crcRange, if_pos ho]
  · simp only [crcRange, if_pos hl, ite_self]
  · simp only [crcRange, if_pos hsum, ite_self]

/-- The range from 0 over the length of a presentable buffer (R40) is the buffer. -/
theorem crcRange_whole (h : bs.length < Config.bufLimit) :
    crcRange (some bs) 0 (BitVec.ofNat 32 bs.length) = some bs := by
  rw [Config.bufLimit] at h
  have hnat : (BitVec.ofNat 32 bs.length).toNat = bs.length := by
    rw [BitVec.toNat_ofNat]; omega
  have hint : (BitVec.ofNat 32 bs.length).toInt = bs.length := by
    rw [BitVec.toInt_eq_toNat_of_lt (by omega), hnat]
  rw [crcRange_of_inRange (by simp) (by omega) (by simp [hint]), hnat]
  simp

end Range

/-! ## The operations (R93, R95, R96) -/

section Operations

variable (s : State) {bs r : List Byte} {buf : Option (List Byte)} {offset length : SInt32}

theorem exec_crc8GenTable :
    exec .crc8GenTable s = .next (s.answer (.ok (.table (memRead tbl 0 Config.tableSize)))) := rfl

theorem exec_crc8Calc_none : exec (.crc8Calc none) s = .next (s.answer (.fault .invalidArgument)) := rfl

theorem exec_crc8Calc_some : exec (.crc8Calc (some bs)) s = .next (s.answer (.ok (.byte (crc8 bs)))) := rfl

theorem exec_crc8CalcR_of_none (h : crcRange buf offset length = none) :
    exec (.crc8CalcR buf offset length) s = .next (s.answer (.fault .invalidArgument)) := by
  simp only [exec, execCrc8CalcR, h, raiseInvalidArgument]

theorem exec_crc8CalcR_of_some (h : crcRange buf offset length = some r) :
    exec (.crc8CalcR buf offset length) s = .next (s.answer (.ok (.byte (crc8 r)))) := by
  simp only [exec, execCrc8CalcR, h, respond]

end Operations

/-! ## The obligations -/

/-- Settles O10: the table's entries are those of R91, so the fold over the one is the fold over the other. -/
theorem crcIsLeftFold : Obligations.CrcIsLeftFold := by
  refine ⟨crc8_nil, fun s b => ?_, crc8_eq_crcByRule⟩
  rw [crc8_append_singleton, crc8Step_eq_crcDerive]

/-- Settles O13: the whole buffer is the range that `CRC8.CALCR` is given. -/
theorem calcResult : Obligations.CalcResult := by
  intro s
  refine ⟨fun _ => rfl, exec_crc8Calc_none s, fun bs => ?_, fun bs hlen => ?_⟩
  · rw [exec_crc8Calc_some, crc8_eq_crcByRule, State.answer]
  · rw [exec_crc8Calc_some, exec_crc8CalcR_of_some s (crcRange_whole hlen)]

/-- Settles O14: an in-range request answers the CRC of its range, any other one faults. -/
theorem calcRangeResult : Obligations.CalcRangeResult := by
  intro s offset length
  refine ⟨fun _ => rfl, exec_crc8CalcR_of_none s rfl, fun bs => ⟨fun hin => ?_, fun hout => ?_⟩⟩
  · obtain ⟨ho, hl, hsum⟩ := hin
    rw [exec_crc8CalcR_of_some s (crcRange_of_inRange ho hl hsum), crc8_eq_crcByRule, State.answer]
  · rw [exec_crc8CalcR_of_none s (crcRange_of_outOfRange hout), State.answer]

/-- Settles O12: the read of the whole table is the literal of R92, whose entries are those of R91. -/
theorem genTableResult : Obligations.GenTableResult := by
  refine ⟨rfl, fun s => ?_⟩
  rw [exec_crc8GenTable, memRead_tbl, tbl_eq_map_crcDerive, State.answer]

end Sys2Proof.Machine

/-! # The header

Proofs for spec 41_header.md: the bytes on the header port, and from them the answer of `HDR.VALIDATE`. -/

namespace Sys2Proof.Machine

/-! ## The header port (R61, R62) -/

section HeaderPort

variable (h : BitVec 48)

/-- Byte 0 of the header is the most significant one on the port. -/
theorem byteAt_hdrBytes_offSync : byteAt (hdrBytes h) Config.offSync = h.extractLsb' 40 8 := rfl

theorem byteAt_hdrBytes_offHcrc : byteAt (hdrBytes h) Config.offHcrc = h.extractLsb' 0 8 := rfl

/-- The bytes the header CRC covers are bytes 1 to 4. -/
theorem slice_hdrBytes_covered :
    slice (hdrBytes h) Config.offDlHi Config.offHcrc =
      [h.extractLsb' 32 8, h.extractLsb' 24 8, h.extractLsb' 16 8, h.extractLsb' 8 8] := rfl

/-! ## The verdict (R111) -/

/-- The verdict on the port's header, with its CRC by the rule of R91. -/
theorem hdrValidate_hdrBytes :
    hdrValidate (hdrBytes h) =
      if h.extractLsb' 40 8 ≠ 0x55 then .badSync
      else if crcByRule [h.extractLsb' 32 8, h.extractLsb' 24 8, h.extractLsb' 16 8, h.extractLsb' 8 8] ≠
        h.extractLsb' 0 8 then .badHeaderCrc
      else .ok := by
  rw [hdrValidate, byteAt_hdrBytes_offSync, byteAt_hdrBytes_offHcrc, slice_hdrBytes_covered, crc8_eq_crcByRule,
    Config.sync]

theorem exec_hdrValidate (s : State) :
    exec (.hdrValidate h) s = .next (s.answer (.ok (.header (hdrValidate (hdrBytes h))))) := rfl

end HeaderPort

/-! ## The obligations -/

/-- Settles O15: the verdict on the port's header is what `HDR.VALIDATE` answers. -/
theorem headerValidateResult : Obligations.HeaderValidateResult := by
  intro h s
  refine ⟨rfl, ?_⟩
  rw [exec_hdrValidate, hdrValidate_hdrBytes, State.answer]

end Sys2Proof.Machine

/-! # The framer

Proofs for spec 42_framer.md: `FRM.PUSH`, `FRM.FEED` and `FRM.CLEAR` on the selected framer, a write to it
followed by a further operation on it, and from them R127 and R128. -/

namespace Sys2Proof.Machine

/-! ## The operations on the selected framer (R126 to R128) -/

section FramerOperations

variable (s : State) (b : Byte) (bs : List Byte)

theorem exec_frmPush :
    exec (.frmPush b) s =
      .next ((s.setFramer s.sel (framerPush Config.payloadFailResume (s.framer s.sel) b).1).answer
        (.ok (.push (pushResult (framerPush Config.payloadFailResume (s.framer s.sel) b).1
          (framerPush Config.payloadFailResume (s.framer s.sel) b).2)))) := rfl

theorem exec_frmFeed :
    exec (.frmFeed bs) s =
      .next ((s.setFramer s.sel (framerFeed Config.payloadFailResume (s.framer s.sel) bs).1).answer
        (.ok (.feed (feedResult bs.length (framerFeed Config.payloadFailResume (s.framer s.sel) bs).1
          (framerFeed Config.payloadFailResume (s.framer s.sel) bs).2)))) := rfl

theorem exec_frmClear :
    exec .frmClear s = .next ((s.resetFramer s.sel).answer (.ok (.cleared (pushResult Framer.reset [])))) := rfl

end FramerOperations

/-! ## Writes to one framer -/

/-- A response is not seen once another is given, whatever framer is written in between. -/
theorem State.answer_setFramer_answer (s : State) (r r' : Response) (k : Nat) (f : Framer) :
    ((s.answer r).setFramer k f).answer r' = (s.setFramer k f).answer r' := rfl

section Writes

variable {s : State} (h : s.Inv) (k : Nat)
include h

theorem State.Inv.framer_setFramer_same (f : Framer) : (s.setFramer k f).framer k = f := by
  rw [State.framer_setFramer h.1, if_pos rfl]

theorem State.Inv.framer_setFramer_of_ne (f : Framer) {j : Nat} (hj : j ≠ k) :
    (s.setFramer k f).framer j = s.framer j := by
  rw [State.framer_setFramer h.1, if_neg hj]

/-- The last of two writes to one framer counts. -/
theorem State.Inv.setFramer_setFramer (f g : Framer) : (s.setFramer k f).setFramer k g = s.setFramer k g := by
  simp only [State.setFramer, Bank.set_set h.1]

/-- Resetting a framer that is seeking a sync byte changes nothing: its window is empty already (R24). -/
theorem State.Inv.resetFramer_of_seekingSync (hst : (s.framer k).st = .seekingSync) : s.resetFramer k = s := by
  have hquiet := h.quiescent k
  have hempty : (s.framer k).q = [] := List.eq_nil_of_length_eq_zero (hquiet.1.1 hst)
  exact h.setFramer_same (hquiet.eq_reset hempty)

/-- A feed that follows a write to the selected framer starts from the one written and overwrites it; the
response in between is not seen. -/
theorem exec_frmFeed_setFramer_sel (f : Framer) (r : Response) (bs : List Byte) :
    exec (.frmFeed bs) ((s.setFramer s.sel f).answer r) =
      .next ((s.setFramer s.sel (framerFeed Config.payloadFailResume f bs).1).answer
        (.ok (.feed (feedResult bs.length (framerFeed Config.payloadFailResume f bs).1
          (framerFeed Config.payloadFailResume f bs).2)))) := by
  have hread : ((s.setFramer s.sel f).answer r).framer ((s.setFramer s.sel f).answer r).sel = f :=
    h.framer_setFramer_same s.sel f
  rw [exec_frmFeed, hread, State.answer_setFramer_answer, State.answer_sel, State.setFramer_sel,
    h.setFramer_setFramer]

end Writes

/-! ## The responses (R127, R129) -/

/-- The response of a feed whose events come in two parts: the fields of the parts joined, the status outputs of the
end. -/
theorem feedResult_append (m n : Nat) (f : Framer) (es es' : List FramerEvent) :
    feedResult (m + n) f (es ++ es') = {
      packets := packetsOf es ++ (feedResult n f es').packets
      reports := reportsOf es ++ (feedResult n f es').reports
      allEvents := es ++ (feedResult n f es').allEvents
      bytesConsumed := m + n
      pending := (feedResult n f es').pending
      needMore := (feedResult n f es').needMore } := by
  simp only [feedResult, packetsOf_append, reportsOf_append]

/-! ## The obligations -/

/-- Settles O22: the fold of a feed unfolded by one byte is a push, and the feed of the rest from the framer that
push leaves. -/
theorem feedIsOnePushPerByte : Obligations.FeedIsOnePushPerByte := by
  intro s h
  refine ⟨fun _ => rfl, ?_, fun b bs => ?_⟩
  · rw [exec_frmFeed, framerFeed_nil, h.setFramer_same rfl]
    rfl
  · refine ⟨_, _, _, _, exec_frmPush s b, rfl, exec_frmFeed_setFramer_sel h _ _ bs, rfl, ?_⟩
    rw [exec_frmFeed, framerFeed_cons, List.length_cons, Nat.add_comm, feedResult_append]
    rfl

/-- Settles O23: a clear writes the reset framer, which is what a quiescent one that seeks a sync byte is. -/
theorem clearResult : Obligations.ClearResult := by
  refine ⟨rfl, fun s h => ⟨?_, fun hst => ?_⟩⟩
  · exact ⟨_, exec_frmClear s, rfl, h.framer_setFramer_same s.sel Framer.reset,
      fun _ hk => h.framer_setFramer_of_ne s.sel Framer.reset hk, rfl, rfl, rfl⟩
  · rw [exec_frmClear, h.resetFramer_of_seekingSync s.sel hst]
    rfl

end Sys2Proof.Machine

/-! # The packet encoder

Proofs for spec 43_encoder.md: the header it builds with anything behind it, the frame as a header, a payload and
its CRC, and from them the answer of `PKT.ENCODE`. -/

namespace Sys2Proof.Machine

/-! ## The header the encoder builds (R114) -/

section BuiltHeader

variable (type : Byte) (dl : BitVec 16) (ol : Byte) (rest : List Byte)

@[simp] theorem hdrBuild_length : (hdrBuild type dl ol).length = Config.hdrSize := rfl

/-- The fields of a built header read back, whatever follows it. -/
theorem hdrFields_hdrBuild_append :
    hdrFields (hdrBuild type dl ol ++ rest) = ⟨dl, ol, type, crc8 (hdrCovered type dl ol)⟩ :=
  congrArg (fun v => (⟨v, ol, type, crc8 (hdrCovered type dl ol)⟩ : HdrFields)) (be16_hiByte_loByte dl)

theorem hdrValidate_hdrBuild : hdrValidate (hdrBuild type dl ol) = .ok := by
  have hsync : byteAt (hdrBuild type dl ol) Config.offSync = Config.sync := rfl
  have hcovered : slice (hdrBuild type dl ol) Config.offDlHi Config.offHcrc = hdrCovered type dl ol := rfl
  have hcrc : byteAt (hdrBuild type dl ol) Config.offHcrc = crc8 (hdrCovered type dl ol) := rfl
  rw [hdrValidate, hsync, hcovered, hcrc, if_neg (not_not.mpr rfl), if_neg (not_not.mpr rfl)]

/-- The first 6 bytes of a sequence that begins with a built header are that header. -/
theorem slice_hdrBuild_append :
    slice (hdrBuild type dl ol ++ rest) 0 Config.hdrSize = hdrBuild type dl ol := rfl

end BuiltHeader

/-- Big-endian: the high byte of a length that fits the 16-bit field (R41). -/
theorem hiByte_ofNat {n : Nat} (h : n ≤ Config.maxDl) : hiByte (BitVec.ofNat 16 n) = BitVec.ofNat 8 (n / 256) := by
  rw [Config.maxDl] at h
  apply BitVec.eq_of_toNat_eq
  rw [hiByte, BitVec.extractLsb'_toNat, BitVec.toNat_ofNat, BitVec.toNat_ofNat, Nat.shiftRight_eq_div_pow]
  omega

/-- The low byte of a length in the 16-bit field (R41). -/
theorem loByte_ofNat (n : Nat) : loByte (BitVec.ofNat 16 n) = BitVec.ofNat 8 (n % 256) := by
  apply BitVec.eq_of_toNat_eq
  rw [loByte, BitVec.extractLsb'_toNat, BitVec.toNat_ofNat, BitVec.toNat_ofNat, Nat.shiftRight_zero]
  omega

/-! ## Parts of an appended sequence -/

theorem slice_append_middle (s t u : List Byte) : slice (s ++ (t ++ u)) s.length (s.length + t.length) = t := by
  rw [slice, ← List.append_assoc, List.take_left' List.length_append, List.drop_left]

theorem byteAt_append_length (s t : List Byte) (b : Byte) : byteAt (s ++ b :: t) s.length = b := by
  simp [byteAt]

/-! ## The encoded frame (R150) -/

section EncodedFrame

variable (type : Byte) (data optData : List Byte)

/-- The encoded frame, with its payload in one piece. -/
theorem pktEncode_eq_header_payload_crc :
    pktEncode type data optData =
      hdrBuild type (BitVec.ofNat 16 data.length) (BitVec.ofNat 8 optData.length) ++
        ((data ++ optData) ++ [crc8 (data ++ optData)]) := by
  simp only [pktEncode, List.append_assoc]

theorem pktEncode_length : (pktEncode type data optData).length = 7 + data.length + optData.length := by
  simp only [pktEncode_eq_header_payload_crc, List.length_append, hdrBuild_length, Config.hdrSize,
    List.length_singleton]
  omega

theorem exec_pktEncode (s : State) :
    exec (.pktEncode type data optData) s = .next (s.answer (.ok (.frame (pktEncode type data optData)))) := rfl

section Presentable

variable {type data optData} (hd : data.length ≤ Config.maxDl) (ho : optData.length ≤ Config.maxOl)

include hd in
/-- The bytes of the frame, with the lengths as numbers and the CRCs by the rule of R91. -/
theorem pktEncode_eq_bytes :
    pktEncode type data optData =
      [0x55, BitVec.ofNat 8 (data.length / 256), BitVec.ofNat 8 (data.length % 256),
        BitVec.ofNat 8 optData.length, type,
        crcByRule [BitVec.ofNat 8 (data.length / 256), BitVec.ofNat 8 (data.length % 256),
          BitVec.ofNat 8 optData.length, type]] ++ data ++ optData ++ [crcByRule (data ++ optData)] := by
  rw [pktEncode, hdrBuild, hdrCovered, hiByte_ofNat hd, loByte_ofNat, crc8_eq_crcByRule, crc8_eq_crcByRule,
    Config.sync]
  rfl

include hd ho

/-- The header of the frame claims the payload the frame holds: neither length is truncated. -/
theorem hdrFields_pktEncode_n : (hdrFields (pktEncode type data optData)).n = (data ++ optData).length := by
  rw [Config.maxDl] at hd
  rw [Config.maxOl] at ho
  rw [pktEncode_eq_header_payload_crc, hdrFields_hdrBuild_append, HdrFields.n, BitVec.toNat_ofNat,
    BitVec.toNat_ofNat, List.length_append]
  omega

theorem payloadOk_pktEncode : payloadOk (pktEncode type data optData) = true := by
  rw [payloadOk, hdrFields_pktEncode_n hd ho, pktEncode_eq_header_payload_crc]
  generalize hh : hdrBuild type (BitVec.ofNat 16 data.length) (BitVec.ofNat 8 optData.length) = h
  generalize data ++ optData = payload
  have hsize : Config.hdrSize = h.length := by rw [← hh, hdrBuild_length]
  have hcrc := byteAt_append_length (h ++ payload) [] (crc8 payload)
  rw [List.length_append, List.append_assoc] at hcrc
  rw [hsize, slice_append_middle, hcrc, beq_self_eq_true]

/-- An encoded packet is a well-formed frame (R65, R150). -/
theorem frameWellFormed_pktEncode : frameWellFormed (pktEncode type data optData) = true := by
  have hlength := pktEncode_length type data optData
  have hsize : Config.hdrSize ≤ (pktEncode type data optData).length := by
    rw [hlength, Config.hdrSize]; omega
  have hheader : hdrValidate (slice (pktEncode type data optData) 0 Config.hdrSize) = .ok := by
    rw [pktEncode_eq_header_payload_crc, slice_hdrBuild_append, hdrValidate_hdrBuild]
  have hframe : (pktEncode type data optData).length = frameLength (pktEncode type data optData) := by
    rw [frameLength, hdrFields_pktEncode_n hd ho, hlength, Config.hdrSize, List.length_append]; omega
  simp only [frameWellFormed, hsize, hheader, ← hframe, payloadOk_pktEncode hd ho, decide_true, beq_self_eq_true,
    Bool.and_self]

end Presentable

end EncodedFrame

/-! ## The obligations -/

/-- Settles O36: the bytes of R150 are the frame the encoder builds. -/
theorem encodeResult : Obligations.EncodeResult := by
  intro ty data optData frame s hd ho hframe
  rw [← pktEncode_eq_bytes hd] at hframe
  subst hframe
  exact ⟨rfl, exec_pktEncode ty data optData s, pktEncode_length ty data optData, frameWellFormed_pktEncode hd ho⟩

end Sys2Proof.Machine

/-! # The address/event model

Proofs for spec 44_address.md: the address byte, the codes of house letters and device numbers, and from them the
answers of the `ADR`, `EVT` and `AEV` operations. -/

namespace Sys2Proof.Machine

/-! ## The address byte (R67, R162) -/

section EventByte

variable (e : Event)

/-- The two nibbles share no bit of the byte, so the OR of R67 is a sum. -/
theorem eventByte_toNat : (eventByte e).toNat = 16 * e.highNibble.toNat + e.lowNibble.toNat := by
  have hhi := e.highNibble.isLt
  have hlo := e.lowNibble.isLt
  have hshift : (e.highNibble.zeroExtend 8 <<< 4).toNat = 2 ^ 4 * e.highNibble.toNat := by
    rw [BitVec.toNat_shiftLeft, BitVec.toNat_setWidth, Nat.shiftLeft_eq]
    omega
  have hwiden : (e.lowNibble.zeroExtend 8).toNat = e.lowNibble.toNat := by
    rw [BitVec.toNat_setWidth]
    omega
  rw [eventByte, BitVec.toNat_or, hshift, hwiden, ← Nat.two_pow_add_eq_or_of_lt hlo]

theorem eventByte_extract_high : (eventByte e).extractLsb' 4 4 = e.highNibble := by
  apply BitVec.eq_of_toNat_eq
  rw [BitVec.extractLsb'_toNat, eventByte_toNat, Nat.shiftRight_eq_div_pow]
  omega

theorem eventByte_extract_low : (eventByte e).extractLsb' 0 4 = e.lowNibble := by
  apply BitVec.eq_of_toNat_eq
  rw [BitVec.extractLsb'_toNat, eventByte_toNat, Nat.shiftRight_zero]
  omega

end EventByte

/-! ## House codes (R70, R163, R164) -/

section HouseCodes

variable (t : Config.HouseTable) {c : Byte}

/-- The index of a letter in either case. -/
theorem houseIndex_of_letter {k : Fin 16} (h : c.toNat = 0x41 + k.val ∨ c.toNat = 0x61 + k.val) :
    houseIndex c = some k := by
  have hupperA : Config.upperA = 0x41 := rfl
  have hlowerA : Config.lowerA = 0x61 := rfl
  have hk := k.isLt
  rw [houseIndex]
  rcases h with hupper | hlower
  · rw [dif_pos (by omega), Option.some_inj, Fin.ext_iff]
    exact Nat.sub_eq_of_eq_add' hupper
  · rw [dif_neg (by omega), dif_pos (by omega), Option.some_inj, Fin.ext_iff]
    exact Nat.sub_eq_of_eq_add' hlower

theorem houseIndex_of_not_letter
    (h : ¬ (0x41 ≤ c.toNat ∧ c.toNat ≤ 0x50) ∧ ¬ (0x61 ≤ c.toNat ∧ c.toNat ≤ 0x70)) : houseIndex c = none := by
  have hupperA : Config.upperA = 0x41 := rfl
  have hlowerA : Config.lowerA = 0x61 := rfl
  rw [houseIndex, dif_neg (by omega), dif_neg (by omega)]

theorem houseEncWith_of_letter {k : Fin 16} (h : c.toNat = 0x41 + k.val ∨ c.toNat = 0x61 + k.val) :
    houseEncWith t c = some (BitVec.ofFin (t.perm k)) := by
  rw [houseEncWith, houseIndex_of_letter h]

theorem houseEncWith_of_not_letter
    (h : ¬ (0x41 ≤ c.toNat ∧ c.toNat ≤ 0x50) ∧ ¬ (0x61 ≤ c.toNat ∧ c.toNat ≤ 0x70)) : houseEncWith t c = none := by
  rw [houseEncWith, houseIndex_of_not_letter h]

/-- The table is onto, so every nibble is some letter's entry, and that letter is its decoding. -/
theorem exists_houseDecWith_eq (n : Nibble) :
    ∃ k : Fin 16, BitVec.ofFin (t.perm k) = n ∧ houseDecWith t n = BitVec.ofNat 8 (0x41 + k.val) :=
  ⟨t.perm.symm n.toFin, congrArg BitVec.ofFin (t.perm.apply_symm_apply n.toFin), rfl⟩

end HouseCodes

/-! ## Device codes (R165) -/

section DeviceCodes

variable {d : SInt32}

theorem exists_devEnc_eq_some (h : 1 ≤ d.toInt ∧ d.toInt ≤ 16) :
    ∃ n : Nibble, (n.toNat : Int) = d.toInt - 1 ∧ devEnc d = some n := by
  refine ⟨BitVec.ofNat 4 (d.toInt - 1).toNat, ?_, by rw [devEnc, if_pos h]⟩
  rw [BitVec.toNat_ofNat]
  omega

theorem devEnc_eq_none (h : d.toInt ≤ 0 ∨ 17 ≤ d.toInt) : devEnc d = none := by
  rw [devEnc, if_neg (by omega)]

end DeviceCodes

/-! ## The operations (R161, R162, R167 to R174) -/

section Operations

variable (source : Source) {c : Byte} {d : SInt32} (n : Nibble) {hi lo : Nibble} (e : Event) (s : State)

theorem exec_evtNew :
    exec (.evtNew source hi lo) s = .next (s.answer (.ok (.event ⟨source, hi, lo⟩))) := rfl

theorem exec_evtByte : exec (.evtByte e) s = .next (s.answer (.ok (.byte (eventByte e)))) := rfl

theorem exec_adrEncH_of_none (h : houseEnc c = none) :
    exec (.adrEncH c) s = .next (s.answer (.fault .invalidArgument)) := by
  simp only [exec, execAdrEncH, h, raiseInvalidArgument]

theorem exec_adrEncH_of_some (h : houseEnc c = some hi) :
    exec (.adrEncH c) s = .next (s.answer (.ok (.nibble hi))) := by
  simp only [exec, execAdrEncH, h, respond]

theorem exec_adrDecH : exec (.adrDecH n) s = .next (s.answer (.ok (.char (houseDec n)))) := rfl

theorem exec_adrEncD_of_none (h : devEnc d = none) :
    exec (.adrEncD d) s = .next (s.answer (.fault .invalidArgument)) := by
  simp only [exec, execAdrEncD, h, raiseInvalidArgument]

theorem exec_adrEncD_of_some (h : devEnc d = some lo) :
    exec (.adrEncD d) s = .next (s.answer (.ok (.nibble lo))) := by
  simp only [exec, execAdrEncD, h, respond]

theorem exec_adrDecD : exec (.adrDecD n) s = .next (s.answer (.ok (.device (n.toNat + 1)))) := rfl

theorem exec_aevNew_of_none (h : houseEnc c = none ∨ devEnc d = none) :
    exec (.aevNew source c d) s = .next (s.answer (.fault .invalidArgument)) := by
  rcases h with hhouse | hdevice
  · simp only [exec, execAevNew, hhouse, raiseInvalidArgument]
  · simp only [exec, execAevNew, hdevice, raiseInvalidArgument]
    split <;> rfl

theorem exec_aevNew_of_some (hhouse : houseEnc c = some hi) (hdevice : devEnc d = some lo) :
    exec (.aevNew source c d) s = .next (s.answer (.ok (.event ⟨source, hi, lo⟩))) := by
  simp only [exec, execAevNew, hhouse, hdevice, respond]

theorem exec_aevHouse : exec (.aevHouse e) s = .next (s.answer (.ok (.char (houseDec e.highNibble)))) := rfl

theorem exec_aevDevice : exec (.aevDevice e) s = .next (s.answer (.ok (.device (e.lowNibble.toNat + 1)))) := rfl

theorem exec_aevShow :
    exec (.aevShow e) s =
      .next (s.answer (.ok (.shown e.source (houseDec e.highNibble) (e.lowNibble.toNat + 1)))) := rfl

end Operations

/-! ## The obligations -/

/-- Settles O39: the operation answers its operands as they are. -/
theorem eventNewResult : Obligations.EventNewResult := by
  intro source hi lo s
  exact ⟨rfl, exec_evtNew source s⟩

/-- Settles O40: both nibbles read back from the sum the byte is. -/
theorem eventByteResult : Obligations.EventByteResult := by
  intro e s
  exact ⟨rfl, eventByte e, exec_evtByte e s, eventByte_extract_high e, eventByte_extract_low e, eventByte_toNat e⟩

/-- Settles O41: a letter of either case has an index in the table, any other code has none. -/
theorem houseEncodeResult : Obligations.HouseEncodeResult := by
  intro c s
  refine ⟨rfl, fun k hletter => ?_, fun hother => ?_⟩
  · exact exec_adrEncH_of_some s (houseEncWith_of_letter _ hletter)
  · exact exec_adrEncH_of_none s (houseEncWith_of_not_letter _ hother)

/-- Settles O42: the table is onto, so every nibble is some letter's entry. -/
theorem houseDecodeResult : Obligations.HouseDecodeResult := by
  intro n s
  obtain ⟨k, hentry, hdec⟩ := exists_houseDecWith_eq Config.houseTable n
  refine ⟨rfl, k, hentry, ?_⟩
  rw [exec_adrDecH, houseDec, hdec, State.answer]

/-- Settles O43: the signed comparison splits the operands in those with a nibble and those without. -/
theorem deviceEncodeResult : Obligations.DeviceEncodeResult := by
  intro d s
  refine ⟨rfl, fun hvalid => ?_, fun hinvalid => ?_⟩
  · obtain ⟨n, hn, hdev⟩ := exists_devEnc_eq_some hvalid
    exact ⟨n, hn, exec_adrEncD_of_some s hdev⟩
  · exact exec_adrEncD_of_none s (devEnc_eq_none hinvalid)

/-- Settles O44: a nibble is at most 15. -/
theorem deviceDecodeResult : Obligations.DeviceDecodeResult := by
  intro n s
  have hn := n.isLt
  exact ⟨rfl, exec_adrDecD n s, by omega, by omega⟩

/-- Settles O45: both encodings succeed, or one of them fails and no Event is built. -/
theorem addressEventNewResult : Obligations.AddressEventNewResult := by
  intro source c d s
  refine ⟨rfl, fun k hletter hlow hhigh => ?_, fun hinvalid => ?_⟩
  · obtain ⟨n, hn, hdev⟩ := exists_devEnc_eq_some ⟨hlow, hhigh⟩
    exact ⟨n, hn, exec_aevNew_of_some source s (houseEncWith_of_letter _ hletter) hdev⟩
  · exact exec_aevNew_of_none source s (hinvalid.imp (houseEncWith_of_not_letter _) devEnc_eq_none)

/-- Settles O46: one letter decodes the high nibble for `AEV.HOUSE` and for `AEV.SHOW`. -/
theorem addressEventReadResults : Obligations.AddressEventReadResults := by
  intro e s
  obtain ⟨k, hentry, hdec⟩ := exists_houseDecWith_eq Config.houseTable e.highNibble
  refine ⟨rfl, rfl, rfl, k, hentry, ?_, exec_aevDevice e s, ?_⟩
  · rw [exec_aevHouse, houseDec, hdec, State.answer]
  · rw [exec_aevShow, houseDec, hdec, State.answer]

end Sys2Proof.Machine

/-! # Faults

Proofs for spec 60_exceptions.md: the operation codes outside the map, the operations that fault and those that
answer, the step that performs them, and from them the complete list of causes of R191. -/

namespace Sys2Proof.Machine

/-! ## Operation codes outside the map (R72; cause 9 of R191) -/

theorem opRow?_eq_none_iff {op : Byte} : opRow? op = none ↔ op ∉ opRows.map OpRow.op := by
  simp only [opRow?, List.find?_eq_none, beq_iff_eq, List.mem_map, not_exists, not_and]

/-- A command is decoded as illegal for its operation code and for nothing else: its operands are not looked at. -/
theorem exists_decode_eq_illegalOp_iff {c : Command} :
    (∃ op, decode c = .error (.illegalOp op)) ↔ c.op ∉ opRows.map OpRow.op := by
  rw [← opRow?_eq_none_iff, decode]
  cases opRow? c.op with
  | none => exact iff_of_true ⟨c.op, rfl⟩ rfl
  | some row => by_cases hwf : (row.build c.ports).wellFormed <;> simp [hwf]

/-! ## Operands that pass the checks of R191 -/

theorem exists_houseEnc_eq_some {c : Byte}
    (h : ¬ (¬ (0x41 ≤ c.toNat ∧ c.toNat ≤ 0x50) ∧ ¬ (0x61 ≤ c.toNat ∧ c.toNat ≤ 0x70))) :
    ∃ n, houseEnc c = some n := by
  rcases or_iff_not_and_not.mpr h with ⟨hlow, hhigh⟩ | ⟨hlow, hhigh⟩
  · exact ⟨_, houseEncWith_of_letter _ (k := ⟨c.toNat - 0x41, by omega⟩) (.inl (Nat.add_sub_of_le hlow).symm)⟩
  · exact ⟨_, houseEncWith_of_letter _ (k := ⟨c.toNat - 0x61, by omega⟩) (.inr (Nat.add_sub_of_le hlow).symm)⟩

/-! ## Operations that fault and operations that answer (causes 1 to 8 of R191) -/

section Operations

variable {i : Instr} (s : State)

/-- Each of the causes 1 to 8 makes its operation fault. -/
theorem exec_of_invalidArgumentCause (h : invalidArgumentCause i) :
    exec i s = .next (s.answer (.fault .invalidArgument)) := by
  cases i
  case crc8Calc buf => rw [show buf = none from h, exec_crc8Calc_none]
  case crc8CalcR buf offset length =>
    cases buf with
    | none => exact exec_crc8CalcR_of_none s rfl
    | some bs => exact exec_crc8CalcR_of_none s (crcRange_of_outOfRange h)
  case adrEncH c => exact exec_adrEncH_of_none s (houseEncWith_of_not_letter _ h)
  case adrEncD d =>
    have hd : ¬ (1 ≤ d.toInt ∧ d.toInt ≤ 16) := h
    exact exec_adrEncD_of_none s (devEnc_eq_none (by omega))
  case aevNew source c d =>
    refine exec_aevNew_of_none source s (Or.imp (houseEncWith_of_not_letter _) (fun hd => ?_) h)
    exact devEnc_eq_none (by omega)
  all_goals exact h.elim

/-- With none of the causes 1 to 8 an operation ends normally (R14). -/
theorem exec_of_not_invalidArgumentCause (h : ¬ invalidArgumentCause i) :
    ∃ t r, exec i s = .next t ∧ t.response = some (.ok r) := by
  cases i
  case crc8Calc buf =>
    obtain ⟨bs, rfl⟩ := Option.ne_none_iff_exists'.mp h
    exact ⟨_, _, exec_crc8Calc_some s, rfl⟩
  case crc8CalcR buf offset length =>
    cases buf with
    | none => exact absurd trivial h
    | some bs =>
      obtain ⟨ho, hl, hsum⟩ : ¬ offset.toInt < 0 ∧ ¬ length.toInt < 0 ∧
        ¬ offset.toInt + length.toInt > (bs.length : Int) := by simpa only [not_or] using h
      have hrange := crcRange_of_inRange (not_lt.mp ho) (not_lt.mp hl) (not_lt.mp hsum)
      exact ⟨_, _, exec_crc8CalcR_of_some s hrange, rfl⟩
  case adrEncH c =>
    obtain ⟨n, hhouse⟩ := exists_houseEnc_eq_some h
    exact ⟨_, _, exec_adrEncH_of_some s hhouse, rfl⟩
  case adrEncD d =>
    obtain ⟨n, -, hdevice⟩ := exists_devEnc_eq_some (not_not.mp h)
    exact ⟨_, _, exec_adrEncD_of_some s hdevice, rfl⟩
  case aevNew source c d =>
    obtain ⟨hletter, hcode⟩ := not_or.mp h
    obtain ⟨hi, hhouse⟩ := exists_houseEnc_eq_some hletter
    obtain ⟨lo, -, hdevice⟩ := exists_devEnc_eq_some (not_not.mp hcode)
    exact ⟨_, _, exec_aevNew_of_some source s hhouse hdevice, rfl⟩
  all_goals exact ⟨_, _, rfl, rfl⟩

end Operations

/-- An operation that ended with the fault response had one of the causes 1 to 8. -/
theorem invalidArgumentCause_of_exec_fault {i : Instr} {s t : State} (hexec : exec i s = .next t)
    (hfault : t.response = some (.fault .invalidArgument)) : invalidArgumentCause i := by
  by_contra hcause
  obtain ⟨t', r, hexec', hok⟩ := exec_of_not_invalidArgumentCause s hcause
  obtain rfl : t = t' := by simpa [hexec] using hexec'
  simp [hfault] at hok

/-! ## The step (R9, R72) -/

section Step

variable {s : State} {r : Request} {rs : List Request} {rest : List (List Request)}
  (hin : s.inbox = (r :: rs) :: rest) (hclash : groupClashes (r :: rs) = false)
include hin hclash

theorem fetch_of_request : fetch s = .request r.cmd (s.accept r (popGroup rs rest)) := by
  simp [fetch, hin, hclash]

theorem step_of_decode_ok {i : Instr} (hdec : decode r.cmd = .ok i) :
    step s = exec i (s.accept r (popGroup rs rest)) := by
  simp only [step, fetch_of_request hin hclash, hdec]

theorem step_of_decode_illegalOp {op : Byte} (hdec : decode r.cmd = .error (.illegalOp op)) :
    step s = .next ((s.accept r (popGroup rs rest)).answer (.fault .invalidArgument)) := by
  simp only [step, fetch_of_request hin hclash, hdec, raiseInvalidArgument]

end Step

/-! ## The obligations -/

/-- Settles O48: a step that goes on performed a decoded operation, which faults for the causes 1 to 8 alone, or met
an operation code outside the map; the codes listed are those of the map. -/
theorem invalidArgumentCausesComplete : Obligations.InvalidArgumentCausesComplete := by
  intro s r rs rest hin hclash
  constructor
  · rintro ⟨t, hstep, hfault⟩
    rcases step_cases hstep with ⟨_, -, rfl⟩ | ⟨r', rs', rest', hin', -, hdec⟩
    · rw [State.idle_response] at hfault
      cases hfault
    · cases hin.symm.trans hin'
      rcases hdec with ⟨op, hillegal, -⟩ | ⟨i, hok, hexec⟩
      · exact .inr (exists_decode_eq_illegalOp_iff.mp ⟨op, hillegal⟩)
      · exact .inl ⟨i, hok, invalidArgumentCause_of_exec_fault hexec hfault⟩
  · rintro (⟨i, hok, hcause⟩ | hop)
    · exact ⟨_, (step_of_decode_ok hin hclash hok).trans (exec_of_invalidArgumentCause _ hcause), rfl⟩
    · obtain ⟨op, hillegal⟩ := exists_decode_eq_illegalOp_iff.mpr hop
      exact ⟨_, step_of_decode_illegalOp hin hclash hillegal, rfl⟩

end Sys2Proof.Machine

/-! # The stream function

Proofs for spec 42_framer.md section 5: `Scan` without its bound on rounds, the framer's run as that scan (R133), and
the two payload-failure policies of R137. -/

namespace Sys2Proof.Machine

variable {pol : Config.ResumePolicy} {S : List Byte} {p : Nat}

/-! ## The scan, round by round (R133) -/

/-- The payload length `N` that the header at position `p` claims (R63). -/
def claimedN (S : List Byte) (p : Nat) : Nat :=
  (be16 (byteAt S (p + 1)) (byteAt S (p + 2))).toNat + (byteAt S (p + 3)).toNat

/-- One round of the scan at position `p` (R133), the scan of the rest given by `next`. -/
def scanRound (pol : Config.ResumePolicy) (S : List Byte) (next : Nat → List FramerEvent × Nat) (p : Nat) :
    List FramerEvent × Nat :=
  if p ≥ S.length then ([], p)
  else if byteAt S p ≠ Config.sync then next (p + 1)
  else if p + 6 > S.length then ([], p)
  else if crc8 (slice S (p + 1) (p + 5)) ≠ byteAt S (p + 5) then
    (.report .badHeaderCrc :: (next (p + 1)).1, (next (p + 1)).2)
  else if p + 7 + claimedN S p > S.length then ([], p)
  else if crc8 (slice S (p + 6) (p + 6 + claimedN S p)) = byteAt S (p + 6 + claimedN S p) then
    (.packet (packetAt (slice S p (p + 7 + claimedN S p))) :: (next (p + 7 + claimedN S p)).1,
      (next (p + 7 + claimedN S p)).2)
  else
    (.report .badPayloadCrc :: (next (scanResume pol p (claimedN S p))).1,
      (next (scanResume pol p (claimedN S p))).2)

theorem scanFrom_add_one (n : Nat) : scanFrom pol S (n + 1) p = scanRound pol S (scanFrom pol S n) p := rfl

theorem lt_scanResume (n : Nat) : p < scanResume pol p n := by
  cases pol <;> simp only [scanResume] <;> omega

theorem scanResume_le (n : Nat) : scanResume pol p n ≤ p + 7 + n := by
  cases pol <;> simp only [scanResume] <;> omega

/-- A round looks at the scan of later positions only. -/
theorem scanRound_congr {next next' : Nat → List FramerEvent × Nat}
    (h : p < S.length → ∀ k, p < k → next k = next' k) : scanRound pol S next p = scanRound pol S next' p := by
  simp only [scanRound]
  by_cases hp : p ≥ S.length
  · rw [if_pos hp, if_pos hp]
  · have hnext := h (by omega)
    rw [hnext (p + 1) (by omega), hnext (p + 7 + claimedN S p) (by omega), hnext _ (lt_scanResume _)]

/-- `Scan(p)`, with rounds to spare. -/
def scanAt (pol : Config.ResumePolicy) (S : List Byte) (p : Nat) : List FramerEvent × Nat :=
  scanFrom pol S (S.length - p + 1) p

theorem scan_eq_scanAt : scan pol S = scanAt pol S 0 := rfl

/-- Once there are more rounds than bytes left, their number is not seen. -/
theorem scanFrom_congr {m n : Nat} (hm : S.length - p < m) (hn : S.length - p < n) :
    scanFrom pol S m p = scanFrom pol S n p := by
  induction m generalizing n p with
  | zero => omega
  | succ m ih =>
    obtain ⟨n, rfl⟩ := Nat.exists_eq_add_of_lt (Nat.zero_lt_of_lt hn)
    rw [Nat.zero_add, scanFrom_add_one, scanFrom_add_one]
    exact scanRound_congr fun hp k hk => ih (by omega) (by omega)

/-- R133 as the spec writes it, with no bound on the rounds. -/
theorem scanAt_eq : scanAt pol S p = scanRound pol S (scanAt pol S) p := by
  rw [scanAt, scanFrom_add_one]
  exact scanRound_congr fun hp k hk => scanFrom_congr (by omega) (by omega)

/-- Induction along the scan: from the positions behind one still inside the stream to that one. -/
theorem scan_induction (S : List Byte) {P : Nat → Prop}
    (round : ∀ p, (p < S.length → ∀ k, p < k → P k) → P p) (p : Nat) : P p := by
  generalize hm : S.length - p = m
  induction m using Nat.strongRecOn generalizing p with
  | ind m ih => exact round p fun hp k hk => ih (S.length - k) (by omega) k rfl

/-! ## The window of the framer as a suffix of the stream -/

theorem byteAt_take {q : List Byte} {i n : Nat} (h : i < n) : byteAt (q.take n) i = byteAt q i := by
  simp [byteAt, h]

theorem drop_eq_byteAt_cons (h : p < S.length) : S.drop p = byteAt S p :: S.drop (p + 1) := by
  rw [List.drop_eq_getElem_cons h, byteAt, List.getD_eq_getElem _ _ h]

theorem slice_take {q : List Byte} {a b n : Nat} (h : b ≤ n) : slice (q.take n) a b = slice q a b := by
  rw [slice, slice, List.take_take, min_eq_left h]

theorem slice_eq_take_drop (q : List Byte) (a n : Nat) : slice q a (a + n) = (q.drop a).take n :=
  memRead_eq_take_drop q a n

theorem hdrFields_take {q : List Byte} {n : Nat} (h : 6 ≤ n) : hdrFields (q.take n) = hdrFields q := by
  simp only [hdrFields, Config.offDlHi, Config.offDlLo, Config.offOl, Config.offType, Config.offHcrc]
  rw [byteAt_take (by omega), byteAt_take (by omega), byteAt_take (by omega), byteAt_take (by omega),
    byteAt_take (by omega)]

theorem hdrFields_dl_le_n (q : List Byte) : (hdrFields q).dl.toNat ≤ (hdrFields q).n := Nat.le_add_right _ _

/-- A Packet is read from the bytes of its own frame alone. -/
theorem packetAt_take (q : List Byte) : packetAt (q.take (frameLength q)) = packetAt q := by
  have h7 := frameLength_ge q
  have hn := hdrFields_n_lt q
  have hdl := hdrFields_dl_le_n q
  simp only [packetAt, hdrFields_take (by omega : 6 ≤ frameLength q)]
  rw [slice_take (by omega), slice_take (by omega), byteAt_take hn, byteAt_take (by simp only [Config.offSync]; omega)]

theorem hdrFields_drop_n (S : List Byte) (p : Nat) : (hdrFields (S.drop p)).n = claimedN S p := by
  simp only [HdrFields.n, hdrFields, byteAt_drop, Config.offDlHi, Config.offDlLo, Config.offOl, claimedN]

theorem frameLength_drop (S : List Byte) (p : Nat) : frameLength (S.drop p) = 7 + claimedN S p := by
  rw [frameLength, hdrFields_drop_n, Config.hdrSize]
  omega

theorem payloadOk_drop (S : List Byte) (p : Nat) :
    payloadOk (S.drop p) = true ↔
      crc8 (slice S (p + 6) (p + 6 + claimedN S p)) = byteAt S (p + 6 + claimedN S p) := by
  rw [payloadOk, beq_iff_eq, hdrFields_drop_n, slice_drop, byteAt_drop, Config.hdrSize, ← Nat.add_assoc]

theorem packetAt_drop (S : List Byte) (p : Nat) :
    packetAt (S.drop p) = packetAt (slice S p (p + 7 + claimedN S p)) := by
  rw [← packetAt_take, frameLength_drop, Nat.add_assoc, slice_eq_take_drop]

theorem drop_resumeDrop (S : List Byte) (p : Nat) :
    (S.drop p).drop (resumeDrop pol (S.drop p)) = S.drop (scanResume pol p (claimedN S p)) := by
  cases pol
  · rw [List.drop_drop]
    rfl
  · rw [resumeDrop, frameLength_drop, List.drop_drop, ← Nat.add_assoc]
    rfl

theorem scanFramer_end : scanFramer S S.length = Framer.reset := by
  simp [scanFramer, Framer.reset]

/-- A window that begins with the sync byte is a candidate (R122). -/
theorem framerRun_seeking_of_sync {q : List Byte} (h : byteAt q 0 = Config.sync) :
    framerRun pol { st := .seekingSync, q := q } = framerRun pol { st := .readingHeader, q := q } := by
  cases q with
  | nil => exact absurd h (by decide)
  | cons b t =>
    obtain rfl : b = Config.sync := h
    exact framerRun_seeking_sync t

/-! ## The run of the framer is the scan (R133) -/

/-- From every position the run of the framer over the rest of the stream is the scan of it. -/
theorem framerRun_drop_eq_scanAt (hp : p ≤ S.length) :
    framerRun pol { st := .seekingSync, q := S.drop p } =
      (scanFramer S (scanAt pol S p).2, (scanAt pol S p).1) := by
  induction p using scan_induction S with
  | round p ih =>
  rw [scanAt_eq, scanRound]
  by_cases hend : p ≥ S.length
  · obtain rfl : p = S.length := by omega
    rw [if_pos hend, scanFramer_end, List.drop_length, framerRun_seeking_nil]
  rw [if_neg hend]
  have hnext : ∀ k, p < k → k ≤ S.length → framerRun pol { st := .seekingSync, q := S.drop k } =
      (scanFramer S (scanAt pol S k).2, (scanAt pol S k).1) := ih (by omega)
  have hlen : (S.drop p).length = S.length - p := List.length_drop
  by_cases hsync : byteAt S p ≠ Config.sync
  · rw [if_pos hsync, drop_eq_byteAt_cons (by omega), framerRun_seeking_ne _ hsync,
      hnext (p + 1) (by omega) (by omega)]
  have hsync0 : byteAt (S.drop p) 0 = Config.sync := by rw [byteAt_drop]; exact not_not.mp hsync
  rw [if_neg hsync, framerRun_seeking_of_sync hsync0]
  by_cases hshort : p + 6 > S.length
  · rw [if_pos hshort, framerRun_header_short (by omega), scanFramer, if_neg (by omega), if_pos (by omega)]
  rw [if_neg hshort]
  by_cases hcrc : crc8 (slice S (p + 1) (p + 5)) ≠ byteAt S (p + 5)
  · rw [if_pos hcrc, framerRun_header_bad (by omega) hsync0 (by rwa [slice_drop, byteAt_drop]), List.drop_drop,
      hnext (p + 1) (by omega) (by omega)]
  rw [if_neg hcrc, framerRun_header_ok (by omega) hsync0 (by rw [slice_drop, byteAt_drop]; exact not_not.mp hcrc)]
  by_cases hbody : p + 7 + claimedN S p > S.length
  · rw [if_pos hbody, framerRun_body_short (by rw [frameLength_drop]; omega), scanFramer, if_neg (by omega),
      if_neg (by omega)]
  rw [if_neg hbody, framerRun_body_full (by rw [frameLength_drop]; omega)]
  by_cases hpay : crc8 (slice S (p + 6) (p + 6 + claimedN S p)) = byteAt S (p + 6 + claimedN S p)
  · rw [if_pos hpay, if_pos ((payloadOk_drop S p).mpr hpay), packetAt_drop, frameLength_drop, List.drop_drop,
      ← Nat.add_assoc, hnext (p + 7 + claimedN S p) (by omega) (by omega)]
  · have hresume := scanResume_le (pol := pol) (p := p) (claimedN S p)
    rw [if_neg hpay, if_neg (fun h => hpay ((payloadOk_drop S p).mp h)), drop_resumeDrop,
      hnext _ (lt_scanResume _) (by omega)]

/-- A whole stream fed to a framer at reset (R133). -/
theorem framerFeed_reset_eq_scan (S : List Byte) :
    framerFeed pol Framer.reset S = (scanFramer S (scan pol S).2, (scan pol S).1) := by
  rw [framerFeed_reset, scan_eq_scanAt]
  exact framerRun_drop_eq_scanAt (p := 0) (Nat.zero_le _)

/-- Feeds one after the other, their events joined, are one feed of the joined bytes. -/
theorem foldl_framerFeed_eq (chunks : List (List Byte)) (f : Framer) (es : List FramerEvent) :
    chunks.foldl
        (fun (r : Framer × List FramerEvent) c => ((framerFeed pol r.1 c).1, r.2 ++ (framerFeed pol r.1 c).2))
        (f, es) =
      ((framerFeed pol f chunks.flatten).1, es ++ (framerFeed pol f chunks.flatten).2) := by
  induction chunks generalizing f es with
  | nil => simp
  | cons c chunks ih => simp [ih, framerFeed_append]

/-! ## The two policies (R137) -/

/-- Where there is no sync byte the scan moves on without an event. -/
theorem scanAt_skip {k : Nat} (hpk : p ≤ k) (hk : k ≤ S.length)
    (h : ∀ j, p ≤ j → j < k → byteAt S j ≠ Config.sync) : scanAt pol S p = scanAt pol S k := by
  induction hpk using Nat.decreasingInduction with
  | self => rfl
  | of_succ j hj ih =>
    rw [scanAt_eq, scanRound, if_neg (by omega), if_pos (h j le_rfl hj), ih fun i hi => h i (by omega)]

/-- An attempt at position `p` that fails for its payload CRC (R133). -/
structure FailedAttempt (S : List Byte) (p : Nat) : Prop where
  sync : byteAt S p = Config.sync
  header : crc8 (slice S (p + 1) (p + 5)) = byteAt S (p + 5)
  whole : p + 7 + claimedN S p ≤ S.length
  payload : crc8 (slice S (p + 6) (p + 6 + claimedN S p)) ≠ byteAt S (p + 6 + claimedN S p)

/-- A round is the same under both policies but for a failed attempt, where they resume at two positions. -/
theorem scanRound_policies_agree {next : Nat → List FramerEvent × Nat}
    (h : FailedAttempt S p → next (p + 1) = next (p + 7 + claimedN S p)) :
    scanRound .syncPlus1 S next p = scanRound .skipAttempt S next p := by
  simp only [scanRound]
  split_ifs with hend hsync hshort hcrc hbody hpay
  case neg =>
    have hfail : FailedAttempt S p := ⟨not_not.mp hsync, not_not.mp hcrc, not_lt.mp hbody, hpay⟩
    simp only [scanResume, h hfail]
  all_goals rfl

/-- Where no failed attempt's span holds a further sync byte, resuming one byte past the candidate comes to the same
as dropping the attempt. -/
theorem scanAt_policies_agree
    (h : ∀ p, FailedAttempt S p → ∀ j, p < j → j < p + 7 + claimedN S p → byteAt S j ≠ Config.sync) (p : Nat) :
    scanAt .syncPlus1 S p = scanAt .skipAttempt S p := by
  induction p using scan_induction S with
  | round p ih =>
  calc scanAt .syncPlus1 S p
      = scanRound .syncPlus1 S (scanAt .syncPlus1 S) p := scanAt_eq
    _ = scanRound .skipAttempt S (scanAt .syncPlus1 S) p :=
        scanRound_policies_agree fun hfail => scanAt_skip (by omega) hfail.whole (h p hfail)
    _ = scanRound .skipAttempt S (scanAt .skipAttempt S) p := scanRound_congr ih
    _ = scanAt .skipAttempt S p := scanAt_eq.symm

/-! ## The obligations -/

/-- Settles O28: the feeds join to one feed of the whole stream, whose run is the scan. -/
theorem framerEqualsScan : Obligations.FramerEqualsScan := by
  intro pol chunks
  rw [foldl_framerFeed_eq, framerFeed_reset_eq_scan, List.nil_append]

/-- Settles O29: the response of a feed is read off the scan it equals. -/
theorem feedFromResetIsScan : Obligations.FeedFromResetIsScan := by
  intro s bytes hreset
  rw [exec_frmFeed, hreset, Config.payloadFailResume, framerFeed_reset_eq_scan, feedResult]
  simp only [Framer.pending, Framer.needMore, scanFramer, List.length_drop, Nat.sub_pos_iff_lt]
  rfl

/-- Settles O35: both scans are followed from position 0. -/
theorem policiesAgreeWithoutInnerSync : Obligations.PoliciesAgreeWithoutInnerSync := by
  intro S h
  refine scanAt_policies_agree (fun p hfail => ?_) 0
  obtain ⟨hsync, hcrc, hlen, hpay⟩ := hfail
  exact h p (claimedN S p) (by omega) hsync hcrc rfl hlen hpay

end Sys2Proof.Machine

/-! # The frames the framer decodes

Proofs for spec 43_encoder.md R152 and 42_framer.md R130, R135: a window that holds a whole frame, the Packet read from
it, the frame encoded from that Packet, and the run of the framer over a frame. -/

namespace Sys2Proof.Machine

variable {pol : Config.ResumePolicy} {q f : List Byte}

/-! ## Cutting a byte sequence -/

/-- Two slices that meet are one. -/
theorem slice_append_slice {a b c : Nat} (hab : a ≤ b) (hbc : b ≤ c) :
    slice q a b ++ slice q b c = slice q a c := by
  obtain ⟨m, rfl⟩ := Nat.exists_eq_add_of_le hab
  obtain ⟨n, rfl⟩ := Nat.exists_eq_add_of_le hbc
  rw [slice_eq_take_drop, slice_eq_take_drop, Nat.add_assoc, slice_eq_take_drop, ← List.drop_drop, List.take_add]

theorem slice_singleton {i : Nat} (h : i < q.length) : slice q i (i + 1) = [byteAt q i] := by
  rw [slice_eq_take_drop, drop_eq_byteAt_cons h, List.take_succ_cons, List.take_zero]

theorem take_eq_slice (q : List Byte) (n : Nat) : q.take n = slice q 0 n := rfl

/-! ## The header at the front of a window -/

theorem hdrValidate_slice_eq_ok_iff :
    hdrValidate (slice q 0 6) = .ok ↔ byteAt q 0 = Config.sync ∧ crc8 (slice q 1 5) = byteAt q 5 := by
  rw [hdrValidate_slice]
  split_ifs with hsync hcrc <;> simp_all

/-- The bytes under the header CRC, from the fields read (R62, R113). -/
theorem slice_eq_hdrCovered (h : 6 ≤ q.length) :
    slice q 1 5 = hdrCovered (hdrFields q).type (hdrFields q).dl (hdrFields q).ol := by
  match q, h with
  | b0 :: b1 :: b2 :: b3 :: b4 :: b5 :: rest, _ =>
    have hfields : hdrFields (b0 :: b1 :: b2 :: b3 :: b4 :: b5 :: rest) = ⟨be16 b1 b2, b3, b4, b5⟩ := rfl
    rw [hfields, hdrCovered, hiByte_be16, loByte_be16]
    rfl

/-- A valid header is the one the encoder builds from its fields (R114). -/
theorem slice_eq_hdrBuild (h : 6 ≤ q.length) (hvalid : hdrValidate (slice q 0 6) = .ok) :
    slice q 0 6 = hdrBuild (hdrFields q).type (hdrFields q).dl (hdrFields q).ol := by
  obtain ⟨hsync, hcrc⟩ := hdrValidate_slice_eq_ok_iff.mp hvalid
  rw [hdrBuild, ← slice_eq_hdrCovered h, hcrc, ← hsync, ← slice_singleton (by omega), ← slice_singleton (by omega),
    slice_append_slice (by omega) (by omega), slice_append_slice (by omega) (by omega)]

/-! ## A window that holds a whole frame -/

/-- The window begins with a frame whose header and payload pass their checks (R65), whatever follows it. -/
structure HoldsFrame (q : List Byte) : Prop where
  whole : frameLength q ≤ q.length
  header : hdrValidate (slice q 0 6) = .ok
  payload : payloadOk q = true

theorem frameWellFormed_iff : frameWellFormed f = true ↔ HoldsFrame f ∧ f.length = frameLength f := by
  have h7 := frameLength_ge f
  simp only [frameWellFormed, Config.hdrSize, Bool.and_eq_true, decide_eq_true_eq, beq_iff_eq]
  constructor
  · rintro ⟨⟨⟨-, hheader⟩, hlength⟩, hpayload⟩
    exact ⟨⟨hlength.ge, hheader, hpayload⟩, hlength⟩
  · rintro ⟨⟨-, hheader, hpayload⟩, hlength⟩
    exact ⟨⟨⟨decide_eq_true (by omega), hheader⟩, hlength⟩, hpayload⟩

namespace HoldsFrame

variable (h : HoldsFrame q)
include h

theorem six_le_length : 6 ≤ q.length := by
  have h7 := frameLength_ge q
  have hwhole := h.whole
  omega

theorem length_data : (packetAt q).data.length = (hdrFields q).dl.toNat := by
  have hn := hdrFields_n_lt q
  have hdl := hdrFields_dl_le_n q
  have hwhole := h.whole
  rw [packetAt, slice_length]
  omega

theorem length_optData : (packetAt q).optData.length = (hdrFields q).ol.toNat := by
  have hn := hdrFields_n_lt q
  have hwhole := h.whole
  have hsum : (hdrFields q).n = (hdrFields q).dl.toNat + (hdrFields q).ol.toNat := rfl
  rw [packetAt, slice_length]
  omega

omit h in
/-- The data and the optional data are the payload, cut in two. -/
theorem data_append_optData (q : List Byte) :
    (packetAt q).data ++ (packetAt q).optData = slice q Config.hdrSize (Config.hdrSize + (hdrFields q).n) := by
  have hdl := hdrFields_dl_le_n q
  exact slice_append_slice (by omega) (by omega)

theorem crc8_payload : crc8 ((packetAt q).data ++ (packetAt q).optData) = (packetAt q).payloadCrc := by
  rw [data_append_optData]
  exact beq_iff_eq.mp h.payload

/-- The Packet read from a frame is the one its type, data and optional data determine (R66). -/
theorem packetOf_packetAt : packetOf (packetAt q).type (packetAt q).data (packetAt q).optData = packetAt q := by
  obtain ⟨hsync, hcrc⟩ := hdrValidate_slice_eq_ok_iff.mp h.header
  rw [packetOf, h.crc8_payload, h.length_data, h.length_optData, BitVec.ofNat_toNat, BitVec.ofNat_toNat,
    BitVec.setWidth_eq, BitVec.setWidth_eq, ← hsync]
  congr 1
  exact (congrArg crc8 (slice_eq_hdrCovered h.six_le_length)).symm.trans hcrc

/-- Encoding the Packet read from a frame gives the frame back (R152 (b)). -/
theorem pktEncode_packetAt :
    pktEncode (packetAt q).type (packetAt q).data (packetAt q).optData = q.take (frameLength q) := by
  have hlast : Config.hdrSize + (hdrFields q).n < q.length := (hdrFields_n_lt q).trans_le h.whole
  have hcrc : (packetAt q).payloadCrc = byteAt q (Config.hdrSize + (hdrFields q).n) := rfl
  have htype : (packetAt q).type = (hdrFields q).type := rfl
  rw [pktEncode_eq_header_payload_crc, h.crc8_payload, hcrc, ← slice_singleton hlast, data_append_optData,
    h.length_data, h.length_optData, BitVec.ofNat_toNat, BitVec.ofNat_toNat, BitVec.setWidth_eq, BitVec.setWidth_eq,
    htype, ← slice_eq_hdrBuild h.six_le_length h.header, slice_append_slice (by omega) (by omega),
    Config.hdrSize, slice_append_slice (by omega) (by omega), frameLength, take_eq_slice, Config.hdrSize]

theorem data_le : (packetAt q).data.length ≤ Config.maxDl := by
  have hdl := (hdrFields q).dl.isLt
  rw [h.length_data, Config.maxDl]
  omega

theorem optData_le : (packetAt q).optData.length ≤ Config.maxOl := by
  have hol := (hdrFields q).ol.isLt
  rw [h.length_optData, Config.maxOl]
  omega

end HoldsFrame

/-- A Packet that its parts determine meets the invariants of R66 where the parts fit their length fields. -/
theorem packetOf_valid {type : Byte} {data optData : List Byte} (hd : data.length ≤ Config.maxDl)
    (ho : optData.length ≤ Config.maxOl) : (packetOf type data optData).Valid := by
  rw [Config.maxDl] at hd
  rw [Config.maxOl] at ho
  refine ⟨rfl, ?_, ?_, rfl, rfl⟩
  · simp only [packetOf, BitVec.toNat_ofNat]
    omega
  · simp only [packetOf, BitVec.toNat_ofNat]
    omega

/-! ## The Packet read from an encoded frame (R152 (a)) -/

theorem packetAt_pktEncode {type : Byte} {data optData : List Byte} (hd : data.length ≤ Config.maxDl)
    (ho : optData.length ≤ Config.maxOl) : packetAt (pktEncode type data optData) = packetOf type data optData := by
  have hframe := (frameWellFormed_iff.mp (frameWellFormed_pktEncode (type := type) hd ho)).1
  have htype : (packetAt (pktEncode type data optData)).type = type := by
    rw [packetAt, pktEncode_eq_header_payload_crc, hdrFields_hdrBuild_append]
  have hdl : (hdrFields (pktEncode type data optData)).dl.toNat = data.length := by
    rw [Config.maxDl] at hd
    rw [pktEncode_eq_header_payload_crc, hdrFields_hdrBuild_append, BitVec.toNat_ofNat]
    omega
  have hdata : (packetAt (pktEncode type data optData)).data = data := by
    rw [packetAt, hdl, pktEncode, List.append_assoc, List.append_assoc]
    exact slice_append_middle (hdrBuild type _ _) data _
  have hoptData : (packetAt (pktEncode type data optData)).optData = optData := by
    have hpayload : slice (pktEncode type data optData) Config.hdrSize
        (Config.hdrSize + (hdrFields (pktEncode type data optData)).n) = data ++ optData := by
      rw [hdrFields_pktEncode_n hd ho, pktEncode_eq_header_payload_crc]
      exact slice_append_middle (hdrBuild type _ _) (data ++ optData) _
    rw [← HoldsFrame.data_append_optData, hdata] at hpayload
    exact List.append_cancel_left hpayload
  rw [← hframe.packetOf_packetAt, htype, hdata, hoptData]

/-! ## The run over a frame -/

/-- A whole frame behind the candidate is emitted and the rest scanned again (R124, R125). -/
theorem framerRun_seeking_frame (h : HoldsFrame q) :
    framerRun pol { st := .seekingSync, q := q } =
      ((framerRun pol { st := .seekingSync, q := q.drop (frameLength q) }).1,
        .packet (packetAt q) :: (framerRun pol { st := .seekingSync, q := q.drop (frameLength q) }).2) := by
  obtain ⟨hsync, hcrc⟩ := hdrValidate_slice_eq_ok_iff.mp h.header
  rw [framerRun_seeking_of_sync hsync, framerRun_header_ok h.six_le_length hsync hcrc, framerRun_body_full h.whole,
    if_pos h.payload]

/-- A well-formed frame is emitted whole and leaves nothing pending. -/
theorem framerRun_seeking_frameWellFormed (h : frameWellFormed f = true) :
    framerRun pol { st := .seekingSync, q := f } = (Framer.reset, [.packet (packetAt f)]) := by
  obtain ⟨hframe, hlength⟩ := frameWellFormed_iff.mp h
  rw [framerRun_seeking_frame hframe, ← hlength, List.drop_length, framerRun_seeking_nil]

theorem framerFeed_reset_frame (h : frameWellFormed f = true) :
    framerFeed pol Framer.reset f = (Framer.reset, [.packet (packetAt f)]) := by
  rw [framerFeed_reset, framerRun_seeking_frameWellFormed h]

/-- Noise that holds no sync byte is discarded (R122). -/
theorem framerRun_seeking_noise {noise : List Byte} (h : Config.sync ∉ noise) (q : List Byte) :
    framerRun pol { st := .seekingSync, q := noise ++ q } = framerRun pol { st := .seekingSync, q := q } := by
  induction noise with
  | nil => rfl
  | cons b noise ih =>
    obtain ⟨hb, hnoise⟩ := not_or.mp (mt List.mem_cons.mpr h)
    rw [List.cons_append, framerRun_seeking_ne _ (Ne.symm hb), ih hnoise]

/-! ## The obligations -/

/-- Settles O37: an encoded packet is a well-formed frame, and the Packet read from a well-formed frame encodes to it. -/
theorem frameRoundTrip : Obligations.FrameRoundTrip := by
  refine ⟨fun pol type data optData hd ho => ?_, fun pol f hf => ?_⟩
  · have hfeed := framerFeed_reset_frame (pol := pol) (frameWellFormed_pktEncode (type := type) hd ho)
    rw [packetAt_pktEncode hd ho] at hfeed
    exact ⟨by rw [pktDecode, hfeed]; rfl, hfeed⟩
  · have hfeed := framerFeed_reset_frame (pol := pol) hf
    obtain ⟨hframe, hlength⟩ := frameWellFormed_iff.mp hf
    refine ⟨packetAt f, by rw [pktDecode, hfeed]; rfl, hfeed, ?_⟩
    rw [hframe.pktEncode_packetAt, ← hlength, List.take_length]

/-- Settles O34: the noise is discarded, and the frame behind it emitted. -/
theorem frameAfterNoiseIsEmitted : Obligations.FrameAfterNoiseIsEmitted := by
  intro s noise data optData type h hempty hnoise hd ho
  have hreset : s.framer s.sel = Framer.reset := (h.quiescent s.sel).eq_reset hempty
  have hfeed : framerFeed Config.payloadFailResume (s.framer s.sel) (noise ++ pktEncode type data optData) =
      (Framer.reset, [.packet (packetOf type data optData)]) := by
    rw [hreset, framerFeed_reset, framerRun_seeking_noise hnoise,
      framerRun_seeking_frameWellFormed (frameWellFormed_pktEncode hd ho), packetAt_pktEncode hd ho]
  rw [exec_frmFeed, hfeed, h.setFramer_same hreset, List.length_append, pktEncode_length]
  rfl

end Sys2Proof.Machine

/-! # Operations on the framers, and the invariant

Proofs for spec 10_state.md and 20_memory.md section 6: which events the framer can yield, what every operation does
to the selected framer and answers, and from them the invariant of R24, the frame of R45 and the independence of R47;
then R121 to R135 for single pushes and feeds. -/

namespace Sys2Proof.Machine

variable {pol : Config.ResumePolicy}

/-! ## The events of the framer (R130, R136) -/

/-- What R130 and R136 say of an event: a Packet is determined by its type, its data and its optional data, which the
encoder's ports can carry, and a report is not `BadSync`. -/
def FramerEvent.Sound : FramerEvent → Prop
  | .packet p => packetOf p.type p.data p.optData = p ∧ p.data.length ≤ Config.maxDl ∧ p.optData.length ≤ Config.maxOl
  | .report k => k ≠ .badSync

theorem HoldsFrame.sound {q : List Byte} (h : HoldsFrame q) : (FramerEvent.packet (packetAt q)).Sound :=
  ⟨h.packetOf_packetAt, h.data_le, h.optData_le⟩

/-- What an arm that goes on can do, inside the loop: discard a byte while it seeks the sync byte, pass the window on
to the next state, or yield one event, which costs the window at least one byte. -/
theorem framerArm_cases {f g : Framer} {es : List FramerEvent} (hf : f.Fits) (h : framerArm pol f = .go g es) :
    (es = [] ∧ f.st = .seekingSync ∧ g.q.length < f.q.length) ∨
    (es = [] ∧ g.st ≠ .seekingSync ∧ g.q = f.q) ∨
    (∃ e, es = [e] ∧ e.Sound ∧ g.q.length < f.q.length) := by
  obtain ⟨st, q⟩ := f
  cases st with
  | seekingSync =>
    cases q with
    | nil => cases h
    | cons b t =>
      simp only [framerArm, armSeekingSync] at h
      split at h <;> cases h
      · exact .inr (.inl ⟨rfl, by simp, rfl⟩)
      · exact .inl ⟨rfl, rfl, by simp [qDrop]⟩
  | readingHeader =>
    have hpos : 1 ≤ q.length := hf.1
    have hdrop : (qDrop q 1).length < q.length := by rw [qDrop, List.length_drop]; omega
    simp only [framerArm, armReadingHeader] at h
    split at h
    · cases h
    split at h <;> cases h
    · exact .inr (.inl ⟨rfl, by simp, rfl⟩)
    · exact .inr (.inr ⟨_, rfl, by simp [FramerEvent.Sound], hdrop⟩)
    case h_3.refl hverdict =>
      rw [Config.hdrSize, hdrValidate_slice, if_neg (not_not.mpr hf.2)] at hverdict
      split at hverdict <;> cases hverdict
  | readingBody =>
    simp only [framerArm, armReadingBody] at h
    split at h <;> cases h
    exact .inr (.inl ⟨rfl, by simp, rfl⟩)
  | emitting =>
    obtain ⟨hwhole, -, hheader⟩ := hf
    have hpos : 7 ≤ q.length := (frameLength_ge q).trans hwhole
    have hdrop : ∀ k, 1 ≤ k → (qDrop q k).length < q.length := fun k hk => by rw [qDrop, List.length_drop]; omega
    simp only [framerArm, armEmitting] at h
    split at h <;> cases h
    case isTrue.refl hpayload =>
      exact .inr (.inr ⟨_, rfl, HoldsFrame.sound ⟨hwhole, hheader, hpayload⟩,
        hdrop _ (by have := frameLength_ge q; omega)⟩)
    case isFalse.refl => exact .inr (.inr ⟨_, rfl, by simp [FramerEvent.Sound], hdrop _ (resumeDrop_pos q)⟩)

theorem framerRun_sound {f : Framer} (hf : f.Fits) : ∀ e ∈ (framerRun pol f).2, e.Sound := by
  revert hf
  refine framerRun_induct (pol := pol) (P := fun f r => f.Fits → ∀ e ∈ r.2, e.Sound) ?_ ?_ f
  · simp
  · intro f g es hg ih hf e he
    rcases List.mem_append.mp he with he | he
    · rcases framerArm_cases hf hg with ⟨rfl, -⟩ | ⟨rfl, -⟩ | ⟨e', rfl, hsound, -⟩
      · cases he
      · cases he
      · rwa [List.mem_singleton.mp he]
    · exact ih (framerArm_fits hf hg) e he

theorem framerPush_sound {f : Framer} (h : f.Quiescent) (b : Byte) : ∀ e ∈ (framerPush pol f b).2, e.Sound :=
  framerRun_sound (h.fits.append b)

theorem framerFeed_sound {f : Framer} (h : f.Quiescent) (bs : List Byte) :
    ∀ e ∈ (framerFeed pol f bs).2, e.Sound := by
  induction bs generalizing f with
  | nil => simp
  | cons b bs ih =>
    intro e he
    rcases List.mem_append.mp he with he | he
    · exact framerPush_sound h b e he
    · exact ih (framerPush_quiescent h b) e he

theorem mem_packetsOf {p : Packet} {es : List FramerEvent} : p ∈ packetsOf es ↔ .packet p ∈ es := by
  rw [packetsOf, List.mem_filterMap]
  constructor
  · rintro ⟨e, he, hp⟩
    cases e <;> cases hp
    exact he
  · exact fun h => ⟨_, h, rfl⟩

theorem mem_reportsOf {k : ReportKind} {es : List FramerEvent} : k ∈ reportsOf es ↔ .report k ∈ es := by
  rw [reportsOf, List.mem_filterMap]
  constructor
  · rintro ⟨e, he, hk⟩
    cases e <;> cases hk
    exact he
  · exact fun h => ⟨_, h, rfl⟩

/-! ## What an operation does (R45, R47) -/

/-- The events a response carries, in whichever of its lists. -/
def Response.events : Response → List FramerEvent
  | .ok (.push r) => r.events
  | .ok (.feed r) => r.allEvents ++ r.packets.map .packet ++ r.reports.map .report
  | .ok (.cleared r) => r.events
  | _ => []

theorem mem_events_feedResult {n : Nat} {f : Framer} {es : List FramerEvent} {e : FramerEvent} :
    e ∈ (Response.ok (.feed (feedResult n f es))).events ↔ e ∈ es := by
  simp only [Response.events, feedResult, List.mem_append, List.mem_map, mem_packetsOf, mem_reportsOf]
  constructor
  · rintro ((he | ⟨p, he, rfl⟩) | ⟨k, he, rfl⟩) <;> exact he
  · exact fun he => .inl (.inl he)

/-- An operation that uses no framer answers one response in every state, without events, and does nothing else. -/
theorem exec_of_pure {i : Instr} (hi : i.usesFramer = false) :
    ∃ r : Response, r.events = [] ∧ ∀ s, exec i s = .next (s.answer r) := by
  cases i
  case frmPush | frmFeed | frmClear => cases hi
  case crc8Calc buf => cases buf <;> exact ⟨_, rfl, fun _ => rfl⟩
  case crc8CalcR buf offset length =>
    cases h : crcRange buf offset length
    · exact ⟨_, rfl, fun s => exec_crc8CalcR_of_none s h⟩
    · exact ⟨_, rfl, fun s => exec_crc8CalcR_of_some s h⟩
  case adrEncH c =>
    cases h : houseEnc c
    · exact ⟨_, rfl, fun s => exec_adrEncH_of_none s h⟩
    · exact ⟨_, rfl, fun s => exec_adrEncH_of_some s h⟩
  case adrEncD d =>
    cases h : devEnc d
    · exact ⟨_, rfl, fun s => exec_adrEncD_of_none s h⟩
    · exact ⟨_, rfl, fun s => exec_adrEncD_of_some s h⟩
  case aevNew source c d =>
    cases hhouse : houseEnc c
    · exact ⟨_, rfl, fun s => exec_aevNew_of_none source s (.inl hhouse)⟩
    cases hdevice : devEnc d
    · exact ⟨_, rfl, fun s => exec_aevNew_of_none source s (.inr hdevice)⟩
    · exact ⟨_, rfl, fun s => exec_aevNew_of_some source s hhouse hdevice⟩
  all_goals exact ⟨_, rfl, fun _ => rfl⟩

theorem usesFramer_cases {i : Instr} (hi : i.usesFramer = true) :
    (∃ b, i = .frmPush b) ∨ (∃ bs, i = .frmFeed bs) ∨ i = .frmClear := by
  cases i
  case frmPush b => exact .inl ⟨b, rfl⟩
  case frmFeed bs => exact .inr (.inl ⟨bs, rfl⟩)
  case frmClear => exact .inr (.inr rfl)
  all_goals cases hi

/-- What an operation makes of the selected framer (`next`) and what it answers (`answer`) are functions of that
framer alone (R47(c)); from a quiescent one it leaves a quiescent one and yields sound events. -/
structure Action where
  next : Framer → Framer
  answer : Framer → Response
  next_quiescent : ∀ f, f.Quiescent → (next f).Quiescent
  answer_sound : ∀ f, f.Quiescent → ∀ e ∈ (answer f).events, e.Sound

/-- The state after an action on the selected framer. -/
def Action.run (a : Action) (s : State) : State :=
  (s.setFramer s.sel (a.next (s.framer s.sel))).answer (a.answer (s.framer s.sel))

/-- Every operation is an action on the selected framer; one that uses none writes back the framer it finds. -/
theorem exists_action (i : Instr) : ∃ a : Action, ∀ s : State, s.Inv → exec i s = .next (a.run s) := by
  cases hi : i.usesFramer
  case false =>
    obtain ⟨r, hr, hexec⟩ := exec_of_pure hi
    refine ⟨⟨id, fun _ => r, fun _ h => h, fun _ _ => by simp [hr]⟩, fun s h => ?_⟩
    have hsame : s.setFramer s.sel (s.framer s.sel) = s := h.setFramer_same rfl
    simp only [hexec, Action.run, id_eq, hsame]
  case true =>
    rcases usesFramer_cases hi with ⟨b, rfl⟩ | ⟨bs, rfl⟩ | rfl
    · exact ⟨⟨fun f => (framerPush Config.payloadFailResume f b).1,
        fun f => .ok (.push (pushResult (framerPush Config.payloadFailResume f b).1
          (framerPush Config.payloadFailResume f b).2)),
        fun f h => framerPush_quiescent h b, fun f h => framerPush_sound h b⟩, fun s _ => exec_frmPush s b⟩
    · exact ⟨⟨fun f => (framerFeed Config.payloadFailResume f bs).1,
        fun f => .ok (.feed (feedResult bs.length (framerFeed Config.payloadFailResume f bs).1
          (framerFeed Config.payloadFailResume f bs).2)),
        fun f h => framerFeed_quiescent h bs, fun f h e he => framerFeed_sound h bs e (mem_events_feedResult.mp he)⟩,
        fun s _ => exec_frmFeed s bs⟩
    · exact ⟨⟨fun _ => Framer.reset, fun _ => .ok (.cleared (pushResult Framer.reset [])),
        fun _ _ => Framer.reset_quiescent, fun _ _ => by simp [Response.events, pushResult]⟩,
        fun s _ => exec_frmClear s⟩

namespace Action

variable (a : Action) {s : State} (h : s.Inv)
include h

theorem run_inv : (a.run s).Inv := h.setFramer s.sel (a.next_quiescent _ (h.quiescent s.sel))

theorem run_framer (k : Nat) : (a.run s).framer k = if k = s.sel then a.next (s.framer s.sel) else s.framer k :=
  State.framer_setFramer h.1 s.sel _ k

end Action

/-! ## What a step does -/

/-- A step from a state that meets the invariant keeps it, and the events it answers are sound. -/
theorem step_inv_sound {s t : State} (h : s.Inv) (hstep : step s = .next t) :
    t.Inv ∧ ∀ r, t.response = some r → ∀ e ∈ r.events, e.Sound := by
  rcases step_cases hstep with ⟨rest, -, rfl⟩ | ⟨r, rs, rest, -, -, ⟨op, -, rfl⟩ | ⟨i, -, hexec⟩⟩
  · exact ⟨h, by simp⟩
  · exact ⟨h, by simp [Response.events]⟩
  · have hs : (s.accept r (popGroup rs rest)).Inv := h
    obtain ⟨a, ha⟩ := exists_action i
    obtain rfl : a.run _ = t := by simpa [ha _ hs] using hexec
    refine ⟨a.run_inv hs, fun r hr => ?_⟩
    obtain rfl : a.answer _ = r := by simpa [Action.run] using hr
    exact a.answer_sound _ (hs.quiescent _)

/-! ## The obligations on the state (R24, R33, R45, R47) -/

/-- Settles O55: a step is an action on one framer or changes none. -/
theorem everyStepKeepsInvariant : Obligations.EveryStepKeepsInvariant :=
  fun _ _ h hstep => (step_inv_sound h hstep).1

/-- Settles O54: no framer is listed at reset. -/
theorem invariantAtReset : Obligations.InvariantAtReset := ⟨Bank.wf_nil, by simp [State.reset]⟩

/-- Settles O53: an unlisted framer is at reset. -/
theorem resetState : Obligations.ResetState :=
  ⟨fun _ => ⟨rfl, rfl, rfl, rfl⟩, tblRead_eq_crcDerive⟩

/-- Settles O56: a framer is quiescent, listed or not; its header bytes are read from the window. -/
theorem invariantHoldsOfEveryInstance : Obligations.InvariantHoldsOfEveryInstance := by
  intro s k h
  obtain ⟨hseek, hheader, hbody, hemit, hmax⟩ := h.quiescent k
  refine ⟨by rw [hseek, List.length_eq_zero_iff], hheader, fun hst => ?_, hemit, hmax⟩
  obtain ⟨hsync, hvalid, hlow, hhigh⟩ := hbody hst
  rw [be16_toNat] at hhigh
  refine ⟨hsync, ?_, hlow, hhigh⟩
  rw [← crc8_eq_crcByRule, ← slice_eq_take_drop]
  exact (hdrValidate_slice_eq_ok_iff.mp hvalid).2

/-- Settles O50: such an operation hands over its response and writes nothing. -/
theorem pureOperationsFrame : Obligations.PureOperationsFrame := by
  intro s i hi
  obtain ⟨r, -, hexec⟩ := exec_of_pure hi
  exact ⟨r, hexec s⟩

/-- Settles O51: an action sees the selected framer alone, and an operation that uses no framer not even that. -/
theorem operationsSeeOnlyTheirFramer : Obligations.OperationsSeeOnlyTheirFramer := by
  refine ⟨fun s t i hs ht hsame => ?_, fun s t i hi => ?_⟩
  · obtain ⟨a, ha⟩ := exists_action i
    refine ⟨_, _, ha s hs, ha t ht, congrArg (some ∘ a.answer) hsame, ?_⟩
    rw [a.run_framer hs, a.run_framer ht, if_pos rfl, if_pos rfl, hsame]
  · obtain ⟨r, -, hexec⟩ := exec_of_pure hi
    exact ⟨_, _, hexec s, hexec t, rfl⟩

/-- Settles O52: each action reads the framer the other does not write, and writes to different framers commute. -/
theorem differentFramersCommute : Obligations.DifferentFramersCommute := by
  intro s i j k l h hkl
  obtain ⟨a, ha⟩ := exists_action i
  obtain ⟨b, hb⟩ := exists_action j
  have hk : ({ s with sel := k } : State).Inv := h
  have hl : ({ s with sel := l } : State).Inv := h
  have hakl : ({ a.run { s with sel := k } with sel := l } : State).Inv := a.run_inv hk
  have hblk : ({ b.run { s with sel := l } with sel := k } : State).Inv := b.run_inv hl
  have hreadl : (a.run { s with sel := k }).framer l = s.framer l := by
    rw [a.run_framer hk, if_neg hkl.symm]; rfl
  have hreadk : (b.run { s with sel := l }).framer k = s.framer k := by
    rw [b.run_framer hl, if_neg hkl]; rfl
  refine ⟨_, _, _, _, ha _ hk, hb _ hakl, hb _ hl, ha _ hblk, ?_, ?_, ?_⟩
  · show Bank.set (Bank.set s.framers k (a.next (s.framer k))) l (b.next ((a.run { s with sel := k }).framer l)) =
      Bank.set (Bank.set s.framers l (b.next (s.framer l))) k (a.next ((b.run { s with sel := l }).framer k))
    rw [hreadl, hreadk, Bank.set_comm h.1 hkl]
  · exact congrArg (some ∘ a.answer) hreadk.symm
  · exact congrArg (some ∘ b.answer) hreadl

/-! ## The obligations on framer operations (R28, R130, R134, R136, R220) -/

/-- Settles O30: `BadSync` is not among the sound events. -/
theorem badSyncNeverReported : Obligations.BadSyncNeverReported := by
  intro s t h hstep
  have hsound := (step_inv_sound h hstep).2
  refine ⟨fun r hr hmem => hsound _ hr _ hmem rfl, fun r hr => ⟨fun hmem => ?_, fun hmem => ?_⟩⟩
  · exact hsound _ hr (.report .badSync) (by simp [Response.events, hmem]) rfl
  · exact hsound _ hr (.report .badSync) (by simp [Response.events, hmem]) rfl

/-- Settles O31: a sound Packet is the one its parts determine, and they encode to a well-formed frame. -/
theorem emittedPacketsAreValid : Obligations.EmittedPacketsAreValid := by
  intro s t p h hstep hp
  have hsound := (step_inv_sound h hstep).2
  obtain ⟨hpacket, hd, ho⟩ : (FramerEvent.packet p).Sound := by
    rcases hp with ⟨r, hr, hmem⟩ | ⟨r, hr, hmem⟩
    · exact hsound _ hr _ hmem
    · exact hsound _ hr _ (by simp [Response.events, hmem])
  have hvalid := packetOf_valid (type := p.type) hd ho
  rw [hpacket] at hvalid
  exact ⟨hvalid, hd, ho, hpacket, frameWellFormed_pktEncode hd ho⟩

/-- Settles O24: both write the reset framer. -/
theorem resetOfOneFramerIsClear : Obligations.ResetOfOneFramerIsClear :=
  fun s h => ⟨exec_frmClear s, h.framer_setFramer_same s.sel Framer.reset,
    fun _ hk => h.framer_setFramer_of_ne s.sel Framer.reset hk⟩

/-- Settles O25: a framer operation writes the selected framer and answers a result. -/
theorem framerOperationsFrame : Obligations.FramerOperationsFrame := by
  intro s i h hi
  obtain ⟨f, r, hexec⟩ : ∃ f r, exec i s = .next ((s.setFramer s.sel f).answer (.ok r)) := by
    rcases usesFramer_cases hi with ⟨b, rfl⟩ | ⟨bs, rfl⟩ | rfl
    · exact ⟨_, _, exec_frmPush s b⟩
    · exact ⟨_, _, exec_frmFeed s bs⟩
    · exact ⟨_, _, exec_frmClear s⟩
  refine ⟨_, r, hexec, rfl, rfl, rfl, rfl, fun k hk => ?_⟩
  have hother : ((s.setFramer s.sel f).answer (.ok r)).framer k = s.framer k :=
    h.framer_setFramer_of_ne s.sel f hk
  exact ⟨hother, fun a => by rw [hother]⟩

/-- Settles O26: the response carries the status of the framer the operation leaves, which is quiescent. -/
theorem statusOutputsMatchTheWindow : Obligations.StatusOutputsMatchTheWindow := by
  intro s t i h hi hexec
  have hquiet : (t.framer s.sel).Quiescent := by
    obtain ⟨a, ha⟩ := exists_action i
    obtain rfl : a.run s = t := by simpa [ha s h] using hexec
    exact (a.run_inv h).quiescent s.sel
  refine ⟨_, _, ?_, rfl, rfl, ?_⟩
  · rcases usesFramer_cases hi with ⟨b, rfl⟩ | ⟨bs, rfl⟩ | rfl
    · cases (exec_frmPush s b).symm.trans hexec
      rw [State.answer_framer, h.framer_setFramer_same]
      exact .inl ⟨_, rfl⟩
    · cases (exec_frmFeed s bs).symm.trans hexec
      rw [State.answer_framer, h.framer_setFramer_same]
      exact .inr (.inl ⟨_, _, _, _, rfl⟩)
    · cases (exec_frmClear s).symm.trans hexec
      rw [State.answer_framer, State.resetFramer, h.framer_setFramer_same]
      exact .inr (.inr rfl)
  · rw [decide_eq_true_eq, Ne, hquiet.1]
    omega

end Sys2Proof.Machine

/-! # Single pushes and feeds

Proofs for spec 42_framer.md section 2 and 5: the run loop as the relation of R121, a push in each state the framer
can be in between operations (R122 to R125), and the bounds of R132, R135 and R225. -/

namespace Sys2Proof.Machine

variable {pol : Config.ResumePolicy} {f : Framer} {es : List FramerEvent}

/-! ## Pushes and feeds whose effect is known -/

theorem exec_frmPush_of_eq {s : State} {b : Byte}
    (h : framerPush Config.payloadFailResume (s.framer s.sel) b = (f, es)) :
    exec (.frmPush b) s = .next ((s.setFramer s.sel f).answer (.ok (.push (pushResult f es)))) := by
  rw [exec_frmPush, h]

theorem exec_frmFeed_of_eq {s : State} {bs : List Byte}
    (h : framerFeed Config.payloadFailResume (s.framer s.sel) bs = (f, es)) :
    exec (.frmFeed bs) s = .next ((s.setFramer s.sel f).answer (.ok (.feed (feedResult bs.length f es)))) := by
  rw [exec_frmFeed, h]

theorem pushResult_of_pos (h : 0 < f.q.length) : pushResult f es = ⟨es, f.q.length, true⟩ := by
  rw [pushResult, Framer.pending, Framer.needMore, decide_eq_true h]

theorem framerPush_of_st {st : FramerState} (h : f.st = st) (b : Byte) :
    framerPush pol f b = framerRun pol { st := st, q := f.q ++ [b] } := by
  subst h
  rfl

/-! ## The run loop as a relation (R121) -/

theorem framerRuns_framerRun (f : Framer) : FramerRuns pol f (framerRun pol f).2 (framerRun pol f).1 :=
  framerRun_induct (pol := pol) (P := fun f r => FramerRuns pol f r.2 r.1) FramerRuns.stop
    (fun f g es hg ih => .go f g _ es _ hg ih) f

/-! ## The length of a frame, and its payload -/

theorem frameLength_eq (q : List Byte) :
    frameLength q = 7 + (256 * (byteAt q 1).toNat + (byteAt q 2).toNat + (byteAt q 3).toNat) := by
  have hdrop := frameLength_drop q 0
  rw [List.drop_zero, claimedN, be16_toNat] at hdrop
  simpa only [Nat.zero_add] using hdrop

theorem hdrFields_n_eq (q : List Byte) :
    (hdrFields q).n = 256 * (byteAt q 1).toNat + (byteAt q 2).toNat + (byteAt q 3).toNat := by
  have hlength := frameLength_eq q
  simp only [frameLength, Config.hdrSize] at hlength
  omega

theorem payloadOk_iff (q : List Byte) :
    payloadOk q = true ↔ crcByRule ((q.drop 6).take (hdrFields q).n) = byteAt q (6 + (hdrFields q).n) := by
  rw [payloadOk, beq_iff_eq, Config.hdrSize, slice_eq_take_drop, crc8_eq_crcByRule]

/-- The Packet at the front of a window, field by field (R66, R113). -/
theorem packetAt_eq {q : List Byte} {dl ol : Nat} (hdl : dl = 256 * (byteAt q 1).toNat + (byteAt q 2).toNat)
    (hol : ol = (byteAt q 3).toNat) :
    packetAt q = {
      sync := byteAt q 0
      dataLength := BitVec.ofNat 16 dl
      optLength := BitVec.ofNat 8 ol
      type := byteAt q 4
      headerCrc := byteAt q 5
      data := (q.drop 6).take dl
      optData := (q.drop (6 + dl)).take ol
      payloadCrc := byteAt q (6 + (dl + ol)) } := by
  have hdlNat : (hdrFields q).dl.toNat = dl := (be16_toNat _ _).trans hdl.symm
  have hdlField : (hdrFields q).dl = BitVec.ofNat 16 dl := by rw [← hdlNat, BitVec.ofNat_toNat, BitVec.setWidth_eq]
  have holField : (hdrFields q).ol = BitVec.ofNat 8 ol := by rw [hol, BitVec.ofNat_toNat, BitVec.setWidth_eq]; rfl
  have hn : (hdrFields q).n = dl + ol := by rw [hdrFields_n_eq, hdl, hol]
  rw [packetAt, hdlNat, hn, ← Nat.add_assoc, slice_eq_take_drop, slice_eq_take_drop, Nat.add_assoc, Config.hdrSize,
    hdlField, holField]
  rfl

/-! ## Nothing is dropped without an event (R135, R225) -/

/-- A run without an event, from a framer that has its candidate, keeps the candidate and every byte. -/
theorem framerRun_eventless (hf : f.Fits) (hst : f.st ≠ .seekingSync) (h : (framerRun pol f).2 = []) :
    (framerRun pol f).1.st ≠ .seekingSync ∧ (framerRun pol f).1.q = f.q := by
  revert hf hst h
  refine framerRun_induct (pol := pol) (P := fun f r =>
    f.Fits → f.st ≠ .seekingSync → r.2 = [] → r.1.st ≠ .seekingSync ∧ r.1.q = f.q) ?_ ?_ f
  · exact fun f _ _ hst _ => ⟨hst, rfl⟩
  · intro f g es hg ih hf hst h
    obtain ⟨hes, hrest⟩ := List.append_eq_nil_iff.mp h
    rcases framerArm_cases hf hg with ⟨-, hseek, -⟩ | ⟨-, hgst, hgq⟩ | ⟨e, rfl, -⟩
    · exact absurd hseek hst
    · rw [← hgq]
      exact ih (framerArm_fits hf hg) hgst hrest
    · cases hes

theorem framerFeed_eventless {bs : List Byte} (hf : f.Quiescent) (hst : f.st ≠ .seekingSync)
    (h : (framerFeed pol f bs).2 = []) : (framerFeed pol f bs).1.q = f.q ++ bs := by
  induction bs generalizing f with
  | nil => simp
  | cons b bs ih =>
    obtain ⟨hpush, hfeed⟩ := List.append_eq_nil_iff.mp h
    obtain ⟨hst', hq'⟩ : (framerPush pol f b).1.st ≠ .seekingSync ∧ (framerPush pol f b).1.q = f.q ++ [b] :=
      framerRun_eventless (hf.fits.append b) hst hpush
    rw [framerFeed_cons, ih (framerPush_quiescent hf b) hst' hfeed, hq', List.append_assoc, List.singleton_append]

/-- Behind a valid header, bytes short of the whole frame are held (R225). -/
theorem framerFeed_body_short {q bs : List Byte} (h6 : 6 ≤ q.length) (h : (q ++ bs).length < frameLength q) :
    framerFeed pol { st := .readingBody, q := q } bs = ({ st := .readingBody, q := q ++ bs }, []) := by
  induction bs generalizing q with
  | nil => simp
  | cons b bs ih =>
    have hpush : framerPush pol { st := .readingBody, q := q } b = ({ st := .readingBody, q := q ++ [b] }, []) := by
      refine framerRun_body_short (q := q ++ [b]) ?_
      rw [frameLength_append q b h6]
      rw [List.length_append] at h ⊢
      rw [List.length_cons] at h
      rw [List.length_singleton]
      omega
    rw [framerFeed_cons, hpush, ih (by rw [List.length_append]; omega)]
    · simp
    · rw [frameLength_append q b h6, List.append_assoc]
      exact h

/-- Between operations a window is shorter than the largest frame (R24 (I-e)). -/
theorem Framer.Quiescent.length_le (h : f.Quiescent) : f.q.length ≤ 65796 := by
  obtain ⟨-, -, -, -, hmax⟩ := h
  exact hmax

/-- Every event costs the window at least one byte (R132). -/
theorem framerRun_events_length (hf : f.Fits) :
    (framerRun pol f).2.length + (framerRun pol f).1.q.length ≤ f.q.length := by
  revert hf
  refine framerRun_induct (pol := pol) (P := fun f r => f.Fits → r.2.length + r.1.q.length ≤ f.q.length) ?_ ?_ f
  · simp
  · intro f g es hg ih hf
    have hrest := ih (framerArm_fits hf hg)
    have harm : es.length + g.q.length ≤ f.q.length := by
      rcases framerArm_cases hf hg with ⟨rfl, -, hq⟩ | ⟨rfl, -, hq⟩ | ⟨e, rfl, -, hq⟩
      · simpa using hq.le
      · simp [hq]
      · rw [List.length_singleton]
        omega
    simp only [List.length_append]
    omega

/-! ## The obligations -/

/-- Settles O18: the run has rounds enough to stop by itself, so it is the loop without a bound. -/
theorem pushRunsTheArms : Obligations.PushRunsTheArms :=
  fun s b => ⟨rfl, _, _, framerRuns_framerRun _, exec_frmPush s b⟩

/-- Settles O19: a framer with an empty window is at reset, and the byte is alone in the window. -/
theorem pushWhileSeekingSync : Obligations.PushWhileSeekingSync := by
  intro s b h hempty
  have hreset : s.framer s.sel = Framer.reset := (h.quiescent s.sel).eq_reset hempty
  refine ⟨fun hb => ?_, ?_⟩
  · rw [exec_frmPush_of_eq (f := Framer.reset) (es := []), h.setFramer_same hreset]
    · rfl
    · rw [hreset, framerPush_of_st Framer.reset_st, Framer.reset_q, List.nil_append, framerRun_seeking_ne [] hb,
        framerRun_seeking_nil]
  · rintro rfl
    refine exec_frmPush_of_eq (es := []) ?_
    rw [hreset, framerPush_of_st Framer.reset_st, Framer.reset_q, List.nil_append,
      framerRun_seeking_of_sync rfl, framerRun_header_short (by simp)]

/-- Settles O20: the header is short, valid, or wrong in its CRC, its first byte being the candidate. -/
theorem pushWhileReadingHeader : Obligations.PushWhileReadingHeader := by
  intro s b q h hst hq
  obtain ⟨-, hheader, -⟩ := h.quiescent s.sel
  obtain ⟨hlow, -, hsync⟩ := hheader hst
  have hpush := framerPush_of_st (pol := Config.payloadFailResume) hst b
  rw [hq] at hpush
  have hsync0 : byteAt q 0 = Config.sync := by rw [← hq, byteAt_append_left _ _ _ hlow, hsync]
  have hcovered : crcByRule ((q.drop 1).take 4) = crc8 (slice q 1 5) := by
    rw [crc8_eq_crcByRule, ← slice_eq_take_drop]
  have hpos : 0 < q.length := by rw [← hq, List.length_append]; omega
  rw [hcovered]
  refine ⟨fun hshort => ?_, fun hfull hcrc => ?_, fun hfull hcrc => ?_⟩
  · rw [exec_frmPush_of_eq (hpush.trans (framerRun_header_short hshort)), pushResult_of_pos hpos]
    rfl
  · have hbody : q.length < frameLength q := by have := frameLength_ge q; omega
    rw [exec_frmPush_of_eq (hpush.trans ((framerRun_header_ok hfull.ge hsync0 hcrc).trans (framerRun_body_short hbody))),
      pushResult_of_pos hpos, hfull]
    rfl
  · refine ⟨_, _, rfl, ?_⟩
    rw [framerFeed_reset]
    exact exec_frmPush_of_eq (hpush.trans (framerRun_header_bad hfull.ge hsync0 hcrc))

/-- Settles O21: the body is short, or the payload CRC in its last byte, the one pushed, is right or wrong. -/
theorem pushWhileReadingBody : Obligations.PushWhileReadingBody := by
  intro s b q dl ol h hst hq hdl hol
  obtain ⟨-, -, hbody, -⟩ := h.quiescent s.sel
  obtain ⟨hsync, -, h6, -⟩ := hbody hst
  have hpush := framerPush_of_st (pol := Config.payloadFailResume) hst b
  rw [hq] at hpush
  have hsync0 : byteAt q 0 = Config.sync := by rw [← hq, byteAt_append_left _ _ _ (by omega), hsync]
  have hframe : frameLength q = 7 + (dl + ol) := by rw [frameLength_eq, hdl, hol]
  have hn : (hdrFields q).n = dl + ol := by rw [hdrFields_n_eq, hdl, hol]
  have hlen : (s.framer s.sel).q.length + 1 = q.length := by rw [← hq, List.length_append, List.length_singleton]
  have hpos : 0 < q.length := by omega
  have hlast : q.length = frameLength q → byteAt q (6 + (dl + ol)) = b := by
    intro hfull
    have hindex : 6 + (dl + ol) = (s.framer s.sel).q.length := by omega
    rw [hindex, ← hq, byteAt_append_length]
  have hpayload : q.length = frameLength q → (payloadOk q = true ↔ crcByRule ((q.drop 6).take (dl + ol)) = b) :=
    fun hfull => by rw [payloadOk_iff, hn, hlast hfull]
  rw [← hframe]
  refine ⟨fun hshort => ?_, fun hfull hcrc => ?_, fun hfull hcrc => ?_⟩
  · rw [exec_frmPush_of_eq (hpush.trans (framerRun_body_short hshort)), pushResult_of_pos hpos]
    rfl
  · have hrun := framerRun_body_full (pol := Config.payloadFailResume) hfull.ge
    rw [if_pos ((hpayload hfull).mpr hcrc), ← hfull, List.drop_length, framerRun_seeking_nil, packetAt_eq hdl hol, hsync0,
      hlast hfull] at hrun
    exact exec_frmPush_of_eq (hpush.trans hrun)
  · have hrun := framerRun_body_full (pol := Config.payloadFailResume) hfull.ge
    rw [if_neg (mt (hpayload hfull).mp hcrc)] at hrun
    refine ⟨_, _, rfl, ?_⟩
    rw [framerFeed_reset]
    exact exec_frmPush_of_eq (hpush.trans hrun)

/-- Settles O27: every event costs the window a byte, and between operations a window is shorter than a frame. -/
theorem loopStopsWithinBounds : Obligations.LoopStopsWithinBounds := by
  refine ⟨fun pol f => framerRun_stops f, fun pol f b h => ⟨?_, ?_, ?_⟩⟩
  · exact (Nat.le_add_right _ _).trans (framerRun_events_length (h.fits.append b))
  · rw [qAppend, List.length_append, List.length_singleton]
    exact Nat.succ_le_succ h.length_le
  · exact (framerPush_quiescent h b).length_le

/-- Settles O32: a framer that reads a body holds what it is fed until the frame is whole. -/
theorem waitBehindValidHeader : Obligations.WaitBehindValidHeader := by
  intro s bs q h hst hq hshort
  obtain ⟨-, -, hbody, -⟩ := h.quiescent s.sel
  obtain ⟨-, -, h6, -⟩ := hbody hst
  rw [← frameLength_eq] at hshort
  rw [hq] at h6
  have hframer : s.framer s.sel = { st := .readingBody, q := q } := by rw [← hst, ← hq]
  rw [exec_frmFeed_of_eq (hframer ▸ framerFeed_body_short h6 (by rwa [List.length_append])), feedResult,
    Framer.pending, Framer.needMore, decide_eq_true (by rw [List.length_append]; omega), List.length_append]
  rfl

/-- Settles O33: without an event every byte would be held, more than a quiescent framer holds. -/
theorem candidateDecidedWithinBound : Obligations.CandidateDecidedWithinBound := by
  intro s bs h hq hlen
  have hquiet := h.quiescent s.sel
  refine ⟨_, _, exec_frmFeed s bs, rfl, fun hevents => ?_⟩
  have hpos : 0 < (s.framer s.sel).q.length := List.length_pos_of_ne_nil hq
  have hst : (s.framer s.sel).st ≠ .seekingSync := fun hst => by have := hquiet.1.mp hst; omega
  have hheld := framerFeed_eventless hquiet hst hevents
  have hmax := (framerFeed_quiescent (pol := Config.payloadFailResume) hquiet bs).length_le
  rw [hheld, List.length_append] at hmax
  omega

end Sys2Proof.Machine

/-! # Commands and steps

Proofs for spec 30_encoding.md section 4 and 20_memory.md section 6: encoding and decoding agree, the commands a step
refuses or faults for, and the requests of one group that clash. -/

namespace Sys2Proof.Machine

/-! ## The operation map (R71) -/

/-- No two rows have the same code, so looking up a row's code finds that row. -/
theorem opRow?_of_mem : ∀ r ∈ opRows, opRow? r.op = some r := by
  simp [opRows, opRow?]

theorem opRow?_eq_some {op : Byte} {r : OpRow} (h : opRow? op = some r) : r ∈ opRows ∧ r.op = op :=
  ⟨List.mem_of_find?_eq_some h, by simpa using List.find?_some h⟩

/-- A row builds instructions of its own code. -/
theorem opcode_build : ∀ r ∈ opRows, ∀ p, (r.build p).opcode = r.op := by
  simp [opRows, Instr.opcode]

/-- Only the rows with a buffer or with segments build an instruction that cannot be presented. -/
theorem wellFormed_build_eq_false_iff : ∀ r ∈ opRows, ∀ p, (r.build p).wellFormed = false ↔
    ((r.op = 0x11 ∨ r.op = 0x12) ∧ bufPresentable p.buf = false) ∨
      (r.op = 0x40 ∧ segmentsPresentable p.data p.optData = false) := by
  simp [opRows, Instr.wellFormed]

theorem usesFramer_iff_opcode (i : Instr) : i.usesFramer = true ↔ i.opcode ∈ ([0x30, 0x31, 0x32] : List Byte) := by
  cases i <;> simp [Instr.usesFramer, Instr.opcode]

/-- Every instruction has its row. -/
theorem exists_opRow (i : Instr) : Laws.OpRow.Statement i := by
  cases i
  case crc8GenTable => exact Laws.OpRow.crc8GenTable
  case crc8Calc => exact Laws.OpRow.crc8Calc _
  case crc8CalcR => exact Laws.OpRow.crc8CalcR _ _ _
  case hdrValidate => exact Laws.OpRow.hdrValidate _
  case frmPush => exact Laws.OpRow.frmPush _
  case frmFeed => exact Laws.OpRow.frmFeed _
  case frmClear => exact Laws.OpRow.frmClear
  case pktEncode => exact Laws.OpRow.pktEncode _ _ _
  case adrEncH => exact Laws.OpRow.adrEncH _
  case adrDecH => exact Laws.OpRow.adrDecH _
  case adrEncD => exact Laws.OpRow.adrEncD _
  case adrDecD => exact Laws.OpRow.adrDecD _
  case evtNew => exact Laws.OpRow.evtNew _ _ _
  case aevNew => exact Laws.OpRow.aevNew _ _ _
  case aevHouse => exact Laws.OpRow.aevHouse _
  case aevDevice => exact Laws.OpRow.aevDevice _
  case evtByte => exact Laws.OpRow.evtByte _
  case aevShow => exact Laws.OpRow.aevShow _

/-! ## Decoding (R71, R72) -/

/-- Decoding the encoding of an instruction gives it back, if its operands can be presented. -/
theorem decode_encode (i : Instr) :
    decode (encode i) = if i.wellFormed then .ok i else .error .operandNotPresentable := by
  obtain ⟨r, hr, hop, -, hbuild⟩ := exists_opRow i
  rw [decode, encode, ← hop, opRow?_of_mem r hr]
  simp only [hbuild]

theorem decode_eq_ok {c : Command} {i : Instr} (h : decode c = .ok i) :
    ∃ r ∈ opRows, r.op = c.op ∧ r.build c.ports = i ∧ i.wellFormed = true := by
  rw [decode] at h
  split at h
  · cases h
  · rename_i r hr
    obtain ⟨hmem, hop⟩ := opRow?_eq_some hr
    split at h <;> cases h
    rename_i hwf
    exact ⟨r, hmem, hop, rfl, hwf⟩

/-- A command is turned away for its operands if its row builds an instruction that cannot be presented. -/
theorem decode_eq_operandNotPresentable_iff {c : Command} :
    decode c = .error .operandNotPresentable ↔ ∃ r ∈ opRows, r.op = c.op ∧ (r.build c.ports).wellFormed = false := by
  constructor
  · intro h
    rw [decode] at h
    split at h
    · cases h
    · rename_i r hr
      obtain ⟨hmem, hop⟩ := opRow?_eq_some hr
      split at h <;> cases h
      rename_i hwf
      exact ⟨r, hmem, hop, by simpa using hwf⟩
  · rintro ⟨r, hmem, hop, hwf⟩
    rw [decode, ← hop, opRow?_of_mem r hmem]
    simp [hwf]

theorem bufPresentable_eq_false_iff {buf : Option (List Byte)} :
    bufPresentable buf = false ↔ ∃ bs, buf = some bs ∧ 2147483648 ≤ bs.length := by
  cases buf with
  | none => simp [bufPresentable]
  | some bs =>
    have hlimit : bufPresentable (some bs) = decide (bs.length < 2147483648) := rfl
    simp [hlimit]

theorem segmentsPresentable_eq_false_iff {data optData : List Byte} :
    segmentsPresentable data optData = false ↔ 65535 < data.length ∨ 255 < optData.length := by
  have hlimits : segmentsPresentable data optData =
    (decide (data.length ≤ 65535) && decide (optData.length ≤ 255)) := rfl
  simp [hlimits, or_iff_not_imp_left]

/-- The six ranges of R72 hold no code of the map. -/
theorem not_mem_opRows_of_illegal : ∀ op : Byte,
    (op.toNat ≤ 0x0F ∨ (0x13 ≤ op.toNat ∧ op.toNat ≤ 0x1F) ∨ (0x21 ≤ op.toNat ∧ op.toNat ≤ 0x2F) ∨
      (0x33 ≤ op.toNat ∧ op.toNat ≤ 0x3F) ∨ (0x41 ≤ op.toNat ∧ op.toNat ≤ 0x4F) ∨ 0x5A ≤ op.toNat) →
    op ∉ opRows.map OpRow.op := by
  decide

theorem decode_of_decodeTableWord {w : Nat} {i : Instr} (h : decodeTableWord 8 w = some i) :
    decode (tableCommand w) = .ok i := by
  rw [decodeTableWord] at h
  split at h
  · split at h <;> cases h
    assumption
  · cases h

/-! ## The outcome of a step (R48, R72) -/

/-- An operation always answers. -/
theorem exec_ne_refused (i : Instr) (s : State) (e : Refusal) : exec i s ≠ .refused e := by
  rcases exec_cases i s with ⟨r, hexec⟩ | ⟨-, f, r, hexec⟩ <;> simp [hexec]

section Step

variable {s : State} {r : Request} {rs g : List Request} {rest : List (List Request)}

theorem step_refused_operand_iff (hin : s.inbox = (r :: rs) :: rest) (hclash : groupClashes (r :: rs) = false) :
    step s = .refused .operandNotPresentable ↔ decode r.cmd = .error .operandNotPresentable := by
  rw [step, fetch_of_request hin hclash]
  cases hdec : decode r.cmd with
  | ok i => simp [hdec, exec_ne_refused]
  | error e => cases e <;> simp [hdec, raiseInvalidArgument]

theorem step_refused_concurrent_iff (hin : s.inbox = g :: rest) :
    step s = .refused .concurrentFramerUse ↔ groupClashes g = true := by
  cases g with
  | nil => simp [step, fetch, hin, groupClashes]
  | cons r rs =>
    cases hclash : groupClashes (r :: rs) with
    | true => simp [step, fetch, hin, hclash]
    | false =>
      rw [step, fetch_of_request hin hclash]
      cases hdec : decode r.cmd with
      | ok i => simp [hdec, exec_ne_refused]
      | error e => cases e <;> simp [hdec, raiseInvalidArgument]

end Step

/-! ## Clashing requests (R48) -/

theorem usesFramer_iff {c : Command} : c.usesFramer = true ↔ c.op ∈ ([0x30, 0x31, 0x32] : List Byte) := by
  rw [Command.usesFramer]
  cases hrow : opRow? c.op with
  | none =>
    have hmap : ([0x30, 0x31, 0x32] : List Byte) ⊆ opRows.map OpRow.op := by decide
    exact iff_of_false Bool.false_ne_true fun hop => opRow?_eq_none_iff.mp hrow (hmap hop)
  | some r =>
    obtain ⟨hmem, hop⟩ := opRow?_eq_some hrow
    rw [← hop, ← opcode_build r hmem c.ports]
    exact usesFramer_iff_opcode _

/-- A group clashes if two of its requests do. -/
theorem groupClashes_iff {g : List Request} :
    groupClashes g = true ↔ ∃ a b c r r', g = a ++ r :: b ++ r' :: c ∧ Request.clashes r r' = true := by
  induction g with
  | nil => simp [groupClashes]
  | cons x g ih =>
    rw [groupClashes, Bool.or_eq_true, List.any_eq_true, ih]
    constructor
    · rintro (⟨r', hmem, hclash⟩ | ⟨a, b, c, r, r', rfl, hclash⟩)
      · obtain ⟨b, c, rfl⟩ := List.append_of_mem hmem
        exact ⟨[], b, c, x, r', rfl, hclash⟩
      · exact ⟨x :: a, b, c, r, r', rfl, hclash⟩
    · rintro ⟨a, b, c, r, r', heq, hclash⟩
      cases a with
      | nil =>
        obtain ⟨rfl, rfl⟩ := List.cons.inj heq
        exact .inl ⟨r', by simp, hclash⟩
      | cons y a =>
        obtain ⟨rfl, rfl⟩ := List.cons.inj heq
        exact .inr ⟨a, b, c, r, r', rfl, hclash⟩

/-! ## The obligations -/

/-- Settles O1: an instruction's row reads back the ports the encoder writes, and builds its own code. -/
theorem decodeOfEncode : Obligations.DecodeOfEncode := by
  refine ⟨fun i hwf => ?_, fun i hwf => ?_, fun c i hdec => ?_⟩
  · rw [decode_encode, if_pos hwf]
  · rw [decode_encode, hwf]
    rfl
  · obtain ⟨r, hr, hop, rfl, hwf⟩ := decode_eq_ok hdec
    exact ⟨(opcode_build r hr c.ports).trans hop, hwf, by rw [decode_encode, if_pos hwf]⟩

/-- Settles O2: each of the six commands is evaluated. -/
theorem writtenOutCommandsDecode : Obligations.WrittenOutCommandsDecode :=
  ⟨rfl, rfl, rfl, rfl, rfl, rfl⟩

/-- Settles O3: a command is illegal for its code alone. -/
theorem illegalOperationCodeFaults : Obligations.IllegalOperationCodeFaults := by
  intro s r rs rest hin hclash
  refine ⟨fun hrange => ?_, fun hlegal op hdec => ?_⟩
  · obtain ⟨op, hdec⟩ := exists_decode_eq_illegalOp_iff.mpr (not_mem_opRows_of_illegal _ hrange)
    exact step_of_decode_illegalOp hin hclash hdec
  · exact exists_decode_eq_illegalOp_iff.mp ⟨op, hdec⟩ hlegal

/-- Settles O4: only the rows with a buffer or with segments build an instruction that cannot be presented. -/
theorem unpresentableOperandRefused : Obligations.UnpresentableOperandRefused := by
  intro s r rs rest hin hclash
  rw [step_refused_operand_iff hin hclash, decode_eq_operandNotPresentable_iff, ← bufPresentable_eq_false_iff,
    ← segmentsPresentable_eq_false_iff]
  constructor
  · rintro ⟨row, hrow, hop, hwf⟩
    rw [← hop]
    exact (wellFormed_build_eq_false_iff row hrow _).mp hwf
  · intro h
    have hmem : r.cmd.op ∈ opRows.map OpRow.op := by
      rcases h with ⟨hop | hop, -⟩ | ⟨hop, -⟩ <;> rw [hop] <;> decide
    obtain ⟨row, hrow, hop⟩ := List.mem_map.mp hmem
    rw [← hop] at h
    exact ⟨row, hrow, hop, (wellFormed_build_eq_false_iff row hrow _).mpr h⟩

/-- Settles O5: the state in which the request runs is the one the statement writes out. -/
theorem stepPerformsDecodedInstruction : Obligations.StepPerformsDecodedInstruction :=
  fun _ _ _ _ _ hin hclash hdec => step_of_decode_ok hin hclash hdec

/-- Settles O6: the request placed in front is the only one of its group. -/
theorem fetchWordIsPerformed : Obligations.FetchWordIsPerformed :=
  fun s w _ hdec => step_of_decode_ok (s := s.withFetchWord 8 w) (rs := []) rfl rfl (decode_of_decodeTableWord hdec)

/-- Settles O7: an empty inbox or an empty group leaves nothing to perform. -/
theorem idleStepKeepsEverything : Obligations.IdleStepKeepsEverything := by
  intro s
  refine ⟨fun hin => ?_, fun rest hin => ?_⟩
  · simp [step, fetch, hin, State.idle]
  · simp [step, fetch, hin, State.idle]

/-- Settles O8: a group clashes if two of its requests, one behind the other, use one framer. -/
theorem concurrentUseOfOneFramerRefused : Obligations.ConcurrentUseOfOneFramerRefused := by
  intro s g rest hin
  rw [step_refused_concurrent_iff hin, groupClashes_iff]
  simp only [Request.clashes, Bool.and_eq_true, decide_eq_true_eq, usesFramer_iff]

/-- Settles O49: a step that answers the fault took a request and wrote no framer. -/
theorem faultLeavesEverythingElse : Obligations.FaultLeavesEverythingElse := by
  intro s t hstep hfault
  rcases step_cases hstep with ⟨rest, -, rfl⟩ | ⟨r, rs, rest, hin, -, ⟨op, -, rfl⟩ | ⟨i, -, hexec⟩⟩
  · cases hfault
  · exact ⟨rfl, r, rs, rest, hin, rfl, rfl, rfl⟩
  · rcases exec_cases i (s.accept r (popGroup rs rest)) with ⟨r', hr'⟩ | ⟨-, f, r', hr'⟩
    · cases hr'.symm.trans hexec
      exact ⟨rfl, r, rs, rest, hin, rfl, rfl, rfl⟩
    · cases hr'.symm.trans hexec
      cases hfault

end Sys2Proof.Machine

/-! # Laws of the CRC8 and of the header

Proofs for spec 40_crc8.md R91, R98 and 41_header.md R112, R114: the table as a linear map, what follows for the CRC,
and single-bit errors in a header. -/

namespace Sys2Proof.Machine

/-! ## The table is linear (R91, R98 (a)) -/

/-- One round of R91: a shift, and the polynomial for the bit shifted out. -/
theorem crcShift_eq (c : Byte) : crcShift c = c <<< 1 ^^^ if c.getLsbD 7 then Config.poly else 0#8 := by
  rw [crcShift]
  split_ifs
  · rfl
  · rw [BitVec.xor_zero]

/-- Both parts of a round are linear. -/
theorem crcShift_xor (a b : Byte) : crcShift (a ^^^ b) = crcShift a ^^^ crcShift b := by
  have hpoly : ∀ x y : Bool, (if (x ^^ y) then Config.poly else 0#8) =
      (if x then Config.poly else 0#8) ^^^ if y then Config.poly else 0#8 := by decide
  rw [crcShift_eq, crcShift_eq, crcShift_eq, BitVec.shiftLeft_xor_distrib, BitVec.getLsbD_xor, hpoly]
  ac_rfl

theorem crcDerive_xor (a b : Byte) : crcDerive (a ^^^ b) = crcDerive a ^^^ crcDerive b := by
  simp only [crcDerive, crcShift_xor]

/-- No entry but entry 0 is 0: a check of the 256 entries. -/
theorem eq_zero_of_crcDerive_eq_zero : ∀ i : Byte, crcDerive i = 0#8 → i = 0#8 := by decide

theorem crcDerive_zero : crcDerive 0#8 = 0#8 := by decide

/-- A linear map with no kernel is one to one. -/
theorem crcDerive_injective : Function.Injective crcDerive := by
  intro a b h
  have hzero : crcDerive (a ^^^ b) = 0#8 := by rw [crcDerive_xor, h, BitVec.xor_self]
  exact BitVec.xor_eq_zero_iff.mp (eq_zero_of_crcDerive_eq_zero _ hzero)

/-! ## The step and the fold (R90, R94, R98) -/

theorem crc8Step_xor (c d a b : Byte) : crc8Step (c ^^^ d) (a ^^^ b) = crc8Step c a ^^^ crc8Step d b := by
  have hswap : c ^^^ d ^^^ (a ^^^ b) = c ^^^ a ^^^ (d ^^^ b) := by ac_rfl
  rw [crc8Step_eq_crcDerive, crc8Step_eq_crcDerive, crc8Step_eq_crcDerive, hswap, crcDerive_xor]

theorem crc8Step_left_injective (b : Byte) : Function.Injective (crc8Step · b) := by
  intro c d h
  simp only [crc8Step_eq_crcDerive] at h
  exact (BitVec.xor_left_inj b).mp (crcDerive_injective h)

theorem crc8Step_right_injective (c : Byte) : Function.Injective (crc8Step c) := by
  intro a b h
  simp only [crc8Step_eq_crcDerive] at h
  exact (BitVec.xor_right_inj c).mp (crcDerive_injective h)

theorem crc8Step_eq_zero_iff {c b : Byte} : crc8Step c b = 0#8 ↔ b = c := by
  rw [crc8Step_eq_crcDerive]
  constructor
  · exact fun h => (BitVec.xor_eq_zero_iff.mp (eq_zero_of_crcDerive_eq_zero _ h)).symm
  · rintro rfl
    rw [BitVec.xor_self, crcDerive_zero]

theorem crc8From_xor (c d : Byte) {s t : List Byte} (h : s.length = t.length) :
    crc8From (c ^^^ d) (List.zipWith (· ^^^ ·) s t) = crc8From c s ^^^ crc8From d t := by
  induction s generalizing c d t with
  | nil =>
    obtain rfl : t = [] := List.eq_nil_of_length_eq_zero h.symm
    rfl
  | cons a s ih =>
    cases t with
    | nil => cases h
    | cons b t => rw [List.zipWith_cons_cons, crc8From_cons, crc8Step_xor, ih _ _ (Nat.succ.inj h)]; rfl

theorem crc8From_left_injective (s : List Byte) : Function.Injective (crc8From · s) := by
  induction s with
  | nil => exact fun _ _ h => h
  | cons b s ih => exact fun _ _ h => crc8Step_left_injective b (ih h)

/-- The residue (R98 (c)): a CRC byte behind a sequence gives 0 if it is the right one. -/
theorem crc8_append_eq_zero_iff {s : List Byte} {b : Byte} : crc8 (s ++ [b]) = 0#8 ↔ b = crc8 s := by
  rw [crc8_append_singleton, crc8Step_eq_zero_iff]

/-- Changing one byte changes the CRC: the steps before and after it are one to one. -/
theorem crc8_set_ne {s : List Byte} {i : Nat} {b : Byte} (hi : i < s.length) (hb : b ≠ byteAt s i) :
    crc8 (s.set i b) ≠ crc8 s := by
  intro h
  have hs : crc8 s = crc8 (s.take i ++ byteAt s i :: s.drop (i + 1)) := by
    rw [← drop_eq_byteAt_cons hi, List.take_append_drop]
  rw [hs, List.set_eq_take_append_cons_drop, if_pos hi, crc8, crc8, crc8From_append, crc8From_append, crc8From_cons, crc8From_cons] at h
  exact hb (crc8Step_right_injective _ (crc8From_left_injective _ h))

theorem one_shiftLeft_ne_zero {k : Nat} (h : k < 8) : 1#8 <<< k ≠ 0#8 := by
  interval_cases k <;> decide

/-- Flipping a bit of a byte changes it. -/
theorem xor_bit_ne (b : Byte) {k : Nat} (h : k < 8) : b ^^^ (1#8 <<< k) ≠ b := fun heq =>
  one_shiftLeft_ne_zero h ((BitVec.xor_right_inj b).mp (heq.trans BitVec.xor_zero.symm))

/-! ## A valid header with one bit flipped (R112 (c)) -/

/-- A single bit, seen through a byte of the port. -/
theorem extractLsb'_bit {k : Nat} (hk : k < 48) (j : Nat) :
    (1#48 <<< k).extractLsb' (8 * j) 8 = if k / 8 = j then 1#8 <<< (k % 8) else 0#8 := by
  apply BitVec.eq_of_getLsbD_eq
  intro i hi
  show ((BitVec.twoPow 48 k).extractLsb' (8 * j) 8).getLsbD i =
    (if k / 8 = j then BitVec.twoPow 8 (k % 8) else 0#8).getLsbD i
  have hmod : k % 8 < 8 := Nat.mod_lt k (by decide)
  split_ifs with hj
  · simp only [BitVec.getLsbD_extractLsb', BitVec.getLsbD_twoPow, hi, hk, hmod, decide_true, Bool.true_and,
      decide_eq_decide]
    omega
  · simp only [BitVec.getLsbD_extractLsb', BitVec.getLsbD_twoPow, BitVec.getLsbD_zero, hi, hk, decide_true,
      Bool.true_and, decide_eq_false_iff_not]
    omega

/-- Flipping bit `k` of the port flips bit `k % 8` of byte `k / 8`, counted from the last one. -/
theorem extractLsb'_xor_bit (h : BitVec 48) {k : Nat} (hk : k < 48) (j : Nat) :
    (h ^^^ (1#48 <<< k)).extractLsb' (8 * j) 8 =
      if k / 8 = j then h.extractLsb' (8 * j) 8 ^^^ (1#8 <<< (k % 8)) else h.extractLsb' (8 * j) 8 := by
  rw [BitVec.extractLsb'_xor, extractLsb'_bit hk, apply_ite (h.extractLsb' (8 * j) 8 ^^^ ·), BitVec.xor_zero]

theorem hdrBytes_eq_map (h : BitVec 48) :
    hdrBytes h = (List.range 6).map fun i => h.extractLsb' (8 * (5 - i)) 8 := rfl

theorem byteAt_hdrBytes (h : BitVec 48) {i : Nat} (hi : i < 6) :
    byteAt (hdrBytes h) i = h.extractLsb' (8 * (5 - i)) 8 := by
  simp [byteAt, hdrBytes_eq_map, hi]

/-- In the order of the bytes: bit `k % 8` of byte `5 - k / 8` is flipped. -/
theorem hdrBytes_xor_bit (h : BitVec 48) {k : Nat} (hk : k < 48) :
    hdrBytes (h ^^^ (1#48 <<< k)) =
      (hdrBytes h).set (5 - k / 8) (byteAt (hdrBytes h) (5 - k / 8) ^^^ (1#8 <<< (k % 8))) := by
  rw [byteAt_hdrBytes h (by omega)]
  refine List.ext_getElem (by rw [List.length_set]; rfl) fun i hi _ => ?_
  have hi6 : i < 6 := hi
  simp only [hdrBytes_eq_map, List.getElem_set, List.getElem_map, List.getElem_range, extractLsb'_xor_bit h hk]
  by_cases hbyte : 5 - k / 8 = i
  · rw [if_pos hbyte, if_pos (by omega), hbyte]
  · rw [if_neg hbyte, if_neg (by omega)]

/-- The verdict on a header, by its sync byte and the residue of the five bytes behind it. -/
theorem hdrValidate_eq_residue {b : Byte} {t : List Byte} (h : t.length = 5) :
    hdrValidate (b :: t) = if b ≠ Config.sync then .badSync else if crc8 t ≠ 0#8 then .badHeaderCrc else .ok := by
  match t, h with
  | [b1, b2, b3, b4, b5], _ =>
    have hresidue : crc8 [b1, b2, b3, b4, b5] = 0#8 ↔ crc8 [b1, b2, b3, b4] = b5 :=
      (crc8_append_eq_zero_iff (s := [b1, b2, b3, b4])).trans eq_comm
    simp only [Ne, hresidue]
    rfl

/-! ## The obligations -/

/-- Settles O9: the rows are read by index, and the table is one to one since it is linear with no kernel. -/
theorem tableIsDerivedFromPolynomial : Obligations.TableIsDerivedFromPolynomial := by
  refine ⟨tbl_length, fun i => ?_, tblRead_eq_crcDerive, fun i j h => crcDerive_injective ?_⟩
  · rw [tbl_getElem?_toNat, tblRead_eq_crcDerive]
  · rwa [tblRead_eq_crcDerive, tblRead_eq_crcDerive] at h

/-- Settles O11: the table is linear and one to one, so the fold over it is. -/
theorem crcLaws : Obligations.CrcLaws := by
  refine ⟨⟨fun a b => ?_, rfl⟩, fun s t hlen => ?_, ⟨fun s => ?_, fun s b h => ?_⟩, fun s i k hi hk => ?_, fun s => rfl,
    fun s t => crc8From_append _ s t⟩
  · simp only [tblRead_eq_crcDerive, crcDerive_xor]
  · exact crc8From_xor Config.crcSeed Config.crcSeed hlen
  · exact crc8_append_eq_zero_iff.mpr rfl
  · exact crc8_append_eq_zero_iff.mp h
  · exact crc8_set_ne hi (xor_bit_ne _ hk)

/-- Settles O16: a flip in byte 0 spoils the sync byte, a flip behind it the residue. -/
theorem headerBitFlipsFail : Obligations.HeaderBitFlipsFail := by
  intro h s k hok hk
  have hvalid : hdrValidate (hdrBytes h) = .ok := by simpa [exec_hdrValidate, State.answer] using hok
  obtain ⟨b, t, hbytes, ht⟩ : ∃ b t, hdrBytes h = b :: t ∧ t.length = 5 := ⟨_, _, rfl, rfl⟩
  rw [hbytes, hdrValidate_eq_residue ht] at hvalid
  obtain ⟨hsync, hresidue⟩ : b = Config.sync ∧ crc8 t = 0#8 := by
    split_ifs at hvalid with hsync hresidue
    exact ⟨not_not.mp hsync, not_not.mp hresidue⟩
  have hflip : ∀ x : Byte, x ^^^ (1#8 <<< (k % 8)) ≠ x := fun x => xor_bit_ne x (Nat.mod_lt k (by decide))
  rw [exec_hdrValidate, hdrBytes_xor_bit h hk, hbytes, State.answer]
  by_cases h40 : 40 ≤ k
  · have hindex : 5 - k / 8 = 0 := by omega
    have hspoilt : b ^^^ (1#8 <<< (k % 8)) ≠ Config.sync := hsync ▸ hflip b
    rw [hindex, List.set_cons_zero, byteAt_cons_zero, hdrValidate_eq_residue ht, if_pos hspoilt, if_pos h40]
  · have hindex : 5 - k / 8 = (4 - k / 8) + 1 := by omega
    have hspoilt := crc8_set_ne (by omega : 4 - k / 8 < t.length) (hflip _)
    rw [hresidue] at hspoilt
    rw [hindex, List.set_cons_succ, byteAt_cons_succ, hdrValidate_eq_residue (by rwa [List.length_set]),
      if_neg (not_not.mpr hsync), if_pos hspoilt, if_neg h40]

/-- Settles O17: the built header read with nothing behind it. -/
theorem builtHeaderValidates : Obligations.BuiltHeaderValidates := by
  intro type dl ol
  have hfields := hdrFields_hdrBuild_append type dl ol []
  rw [List.append_nil] at hfields
  refine ⟨?_, hdrValidate_hdrBuild type dl ol, ?_, ?_, ?_⟩
  · rw [← crc8_eq_crcByRule]
    rfl
  · rw [hfields]
  · rw [hfields]
  · rw [hfields]

end Sys2Proof.Machine

/-! # Addresses and numeric codes

Proofs for spec 00_scope.md R8, 44_address.md section 5 and 60_exceptions.md R201: the house table, the round trips of
R175, and the codes. -/

namespace Sys2Proof.Machine

/-! ## Letters and device codes as operands -/

/-- The upper-case letters of R70 as characters. -/
theorem toNat_letter (k : Fin 16) : (BitVec.ofNat 8 (0x41 + k.val) : Byte).toNat = 0x41 + k.val := by
  have hk := k.isLt
  rw [BitVec.toNat_ofNat]
  omega

theorem exec_adrEncH_letter (k : Fin 16) (s : State) :
    exec (.adrEncH (BitVec.ofNat 8 (0x41 + k.val))) s =
      .next (s.answer (.ok (.nibble (BitVec.ofFin (Config.houseTable.perm k))))) :=
  exec_adrEncH_of_some s (houseEncWith_of_letter _ (.inl (toNat_letter k)))

/-- A letter answers a nibble if the nibble is its entry in the table. -/
theorem exec_adrEncH_letter_eq_iff {k : Fin 16} {s : State} {n : Nibble} :
    exec (.adrEncH (BitVec.ofNat 8 (0x41 + k.val))) s = .next { s with response := some (.ok (.nibble n)) } ↔
      Config.houseTable.perm k = n.toFin := by
  rw [exec_adrEncH_letter]
  constructor
  · intro h
    have hn : BitVec.ofFin (Config.houseTable.perm k) = n := by simpa [State.answer] using h
    rw [← hn]
  · intro h
    rw [h]
    rfl

/-- A nibble decodes to its letter, which encodes to it (R164). -/
theorem houseEncWith_houseDecWith (t : Config.HouseTable) (n : Nibble) :
    houseEncWith t (houseDecWith t n) = some n := by
  obtain ⟨k, hentry, hdec⟩ := exists_houseDecWith_eq t n
  rw [hdec, houseEncWith_of_letter t (.inl (toNat_letter k)), hentry]

theorem houseDecWith_perm (t : Config.HouseTable) (k : Fin 16) :
    houseDecWith t (BitVec.ofFin (t.perm k)) = BitVec.ofNat 8 (0x41 + k.val) :=
  congrArg (fun j : Fin 16 => BitVec.ofNat 8 (Config.upperA + j.val)) (t.perm.symm_apply_apply k)

/-- A nibble's device code encodes to it (R166). -/
theorem devEnc_devDec (n : Nibble) : devEnc (BitVec.ofNat 32 (n.toNat + 1)) = some n := by
  have hn := n.isLt
  have hcode : (BitVec.ofNat 32 (n.toNat + 1)).toInt = n.toNat + 1 := by
    rw [BitVec.toInt_eq_toNat_of_lt] <;> rw [BitVec.toNat_ofNat] <;> omega
  obtain ⟨m, hm, hdev⟩ := exists_devEnc_eq_some (d := BitVec.ofNat 32 (n.toNat + 1)) (by omega)
  rw [hdev, Option.some_inj]
  exact BitVec.eq_of_toNat_eq (by omega)

/-! ## The obligations -/

/-- Settles O38: the letters answer the entries of a table that is a bijection and not the alphabetical map. -/
theorem houseTableIsAdmissible : Obligations.HouseTableIsAdmissible := by
  refine ⟨fun s n => ?_, fun s => ?_, rfl, fun t => ⟨t.perm, dif_neg t.notAlphabetical⟩⟩
  · simp only [exec_adrEncH_letter_eq_iff]
    exact Config.houseTable.perm.bijective.existsUnique n.toFin
  · by_contra! hall
    refine Config.houseTable.notAlphabetical (Equiv.ext fun k => ?_)
    exact exec_adrEncH_letter_eq_iff.mp (hall k)

/-- Settles O47: the table and the device codes are each inverted by their decoding. -/
theorem addressRoundTrip : Obligations.AddressRoundTrip := by
  refine ⟨fun s source c d k hletter hlow hhigh => ?_, fun s source c d hinvalid => ?_, fun s source hi lo => ?_,
    houseEncWith_houseDecWith, fun t k c hletter => ⟨_, houseEncWith_of_letter t hletter, houseDecWith_perm t k⟩⟩
  · obtain ⟨n, hn, hdev⟩ := exists_devEnc_eq_some ⟨hlow, hhigh⟩
    have hcode : n.toNat + 1 = d.toNat := by
      rw [← toNat_toInt_of_nonneg (by omega : 0 ≤ d.toInt)]
      omega
    refine ⟨_, exec_aevNew_of_some source s (houseEncWith_of_letter _ hletter) hdev, ?_, ?_⟩
    · rw [exec_aevHouse, houseDec, houseDecWith_perm, State.answer]
    · rw [exec_aevDevice, hcode, State.answer]
  · refine exec_aevNew_of_none source s (Or.imp (houseEncWith_of_not_letter _) (fun hd => ?_) hinvalid)
    exact devEnc_eq_none (by omega)
  · exact ⟨_, _, exec_aevHouse _ s, exec_aevDevice _ s,
      exec_aevNew_of_some source s (houseEncWith_houseDecWith _ hi) (devEnc_devDec lo)⟩

/-- Settles O57: each code is the one R201 lists. -/
theorem numericCodes : Obligations.NumericCodes :=
  ⟨fun _ => rfl, fun _ => rfl, rfl, rfl, rfl, rfl, rfl, rfl, rfl, rfl, rfl, rfl, rfl, fun _ => rfl, fun _ => rfl⟩

end Sys2Proof.Machine
